-- ==== Sys2Proof/Word.lean ====
section
/-! DEFINITION. Word types of the CHIP-8 core: every value is an unsigned word of a fixed width
(00_scope.md R7, R12) or one of sixteen names (10_state.md R20, R35). -/

namespace Sys2Proof

/-- A data byte: a general register, a timer, a memory byte, an 8-bit immediate (R3, R20). -/
abbrev Byte := BitVec 8

/-- A 12-bit address: the pc, the index register, a return address, the field nnn (R7, R23, R25). -/
abbrev Addr := BitVec 12

/-- A 16-bit opcode word (R70). -/
abbrev OpWord := BitVec 16

/-- A 4-bit field of an opcode word (R15, R71). -/
abbrev Nibble := BitVec 4

/-- A general register's number, 0 to 15, naming V0 to VF (R20). -/
abbrev Reg := Fin 16

/-- A key's number, 0 to 15 (R35). -/
abbrev Key := Fin 16

end Sys2Proof
end

