-- ==== Sys2Proof/Config.lean ====
section
/-! DEFINITION. What an implementation fixes (00_scope.md R7, R8) and the free values.
The default values of the configuration are in Sys2Proof/Machine/Defaults.lean. -/

namespace Sys2Proof

/-- SHIFT_SOURCE, which register 8xy6 and 8xyE shift (R8, R136, R140). -/
inductive ShiftSource where
  | vx
  | vy
  deriving DecidableEq, Repr

/-- LOADSTORE_I_MODE, what Fx55 and Fx65 leave in I (R8, R158, R160). -/
inductive LoadStoreIMode where
  | unchanged
  | advance
  deriving DecidableEq, Repr

/-- ZERO_FAMILY_MATCH, whether 0x0nE0 and 0x0nEE with n nonzero are CLS and RET (R8, R76). -/
inductive ZeroFamilyMatch where
  | exact
  | lowByte
  deriving DecidableEq, Repr

/-- The parameters the spec leaves to a configuration (R8), fixed for one machine.
DESIGN CHOICE (log entry 1): the record is carried in State, so that a claim can hold for every
configuration; no event changes it. -/
structure Config where
  shiftSource     : ShiftSource
  loadStoreIMode  : LoadStoreIMode
  zeroFamilyMatch : ZeroFamilyMatch
  /-- STRICT_LOW_NIBBLE: whether 5xyN and 9xyN with N nonzero are UNKNOWN (R76). -/
  strictLowNibble : Bool
  /-- FONT_BASE, the address of the glyph of digit 0 (R32). -/
  fontBase        : Addr
  /-- FONT_DATA, the 80 glyph bytes (R33). -/
  fontData        : List Byte
  deriving DecidableEq, Repr

/-- FREE VALUE (log entry 2): the random byte the n-th Cxkk of a run draws. The spec gives no
generator, seed or distribution (R146), so nothing constrains it. -/
opaque Config.freeByte : Nat → Byte

/-- The events whose order R220 leaves to the host: any of them may come at any time. -/
inductive ClockEvent where
  | step
  | tick
  | keySample (k16 : Vector Bool 16)
  | snapshot
  deriving DecidableEq, Repr, Inhabited

/-- FREE VALUE (log entry 3): the n-th event of a host whose order of events is left open. Nothing
constrains the sequence, so it stands for every infinite interleaving of R220, with no fairness and
no rate. -/
opaque Config.hostEvent : Nat → ClockEvent

/-- INSTR_HZ, the host's instruction rate, an open argument that no rule reads (R8, R256). -/
opaque Config.instrHz : Nat

end Sys2Proof
end

