-- ==== Sys2Proof/Machine/Defaults.lean ====
section
/-! DEFINITION. The fixed parameters (00_scope.md R7) and the default configuration (R8). -/

namespace Sys2Proof.Machine

/-- MEM_SIZE (R7, R31). -/
def memSize : Nat := 4096

/-- LOAD_ADDR, where a ROM is loaded and where execution starts (R7, R241). -/
def loadAddr : Nat := 0x200

/-- STACK_DEPTH (R7, R26). -/
def stackDepth : Nat := 16

/-- TIMER_HZ (R7, R216). No rule of the machine reads it: a Tick is an event, not a time. -/
def timerHz : Nat := 60

/-- The glyphs of the digits 0 to 7 (R33). -/
def fontDataLow : List Byte :=
  [0xF0, 0x90, 0x90, 0x90, 0xF0,
   0x20, 0x60, 0x20, 0x20, 0x70,
   0xF0, 0x10, 0xF0, 0x80, 0xF0,
   0xF0, 0x10, 0xF0, 0x10, 0xF0,
   0x90, 0x90, 0xF0, 0x10, 0x10,
   0xF0, 0x80, 0xF0, 0x10, 0xF0,
   0xF0, 0x80, 0xF0, 0x90, 0xF0,
   0xF0, 0x10, 0x20, 0x40, 0x40]

/-- The glyphs of the digits 8 to F (R33). -/
def fontDataHigh : List Byte :=
  [0xF0, 0x90, 0xF0, 0x90, 0xF0,
   0xF0, 0x90, 0xF0, 0x10, 0xF0,
   0xF0, 0x90, 0xF0, 0x90, 0x90,
   0xE0, 0x90, 0xE0, 0x90, 0xE0,
   0xF0, 0x80, 0x80, 0x80, 0xF0,
   0xE0, 0x90, 0x90, 0x90, 0xE0,
   0xF0, 0x80, 0xF0, 0x80, 0xF0,
   0xF0, 0x80, 0xF0, 0x80, 0x80]

/-- FONT_DATA's default, the conventional hexadecimal font (R33). -/
def fontData : List Byte := fontDataLow ++ fontDataHigh

/-- The default configuration (R8; decisions D7, D11, D12, D14). -/
def defaultConfig : Config where
  shiftSource     := .vx
  loadStoreIMode  := .unchanged
  zeroFamilyMatch := .exact
  strictLowNibble := true
  fontBase        := 0x000
  fontData        := fontData

end Sys2Proof.Machine
end

