-- ==== Sys2Proof/Syntax.lean ====
section
/-! DEFINITION. The instructions: one constructor per row of spec/opcode_table.json
(30_encoding.md R75), the row of every other word (UNKNOWN, R76) among them.
Operands are the plain unsigned fields of R73. -/

namespace Sys2Proof

inductive Instr where
  /-- 00E0 CLS (R170) -/
  | cls
  /-- 00EE RET (R100) -/
  | ret
  /-- 1nnn JP nnn (R102) -/
  | jp (nnn : Addr)
  /-- 2nnn CALL nnn (R104) -/
  | call (nnn : Addr)
  /-- 3xkk SE Vx, kk (R106) -/
  | seImm (x : Reg) (kk : Byte)
  /-- 4xkk SNE Vx, kk (R107) -/
  | sneImm (x : Reg) (kk : Byte)
  /-- 5xy0 SE Vx, Vy (R108) -/
  | seReg (x y : Reg)
  /-- 6xkk LD Vx, kk (R120) -/
  | ldImm (x : Reg) (kk : Byte)
  /-- 7xkk ADD Vx, kk (R122) -/
  | addImm (x : Reg) (kk : Byte)
  /-- 8xy0 LD Vx, Vy (R124) -/
  | ldReg (x y : Reg)
  /-- 8xy1 OR Vx, Vy (R126) -/
  | orReg (x y : Reg)
  /-- 8xy2 AND Vx, Vy (R128) -/
  | andReg (x y : Reg)
  /-- 8xy3 XOR Vx, Vy (R130) -/
  | xorReg (x y : Reg)
  /-- 8xy4 ADD Vx, Vy (R132) -/
  | addReg (x y : Reg)
  /-- 8xy5 SUB Vx, Vy (R134) -/
  | subReg (x y : Reg)
  /-- 8xy6 SHR Vx (, Vy) (R136) -/
  | shr (x y : Reg)
  /-- 8xy7 SUBN Vx, Vy (R138) -/
  | subnReg (x y : Reg)
  /-- 8xyE SHL Vx (, Vy) (R140) -/
  | shl (x y : Reg)
  /-- 9xy0 SNE Vx, Vy (R109) -/
  | sneReg (x y : Reg)
  /-- Annn LD I, nnn (R150) -/
  | ldI (nnn : Addr)
  /-- Bnnn JP V0, nnn (R112) -/
  | jpV0 (nnn : Addr)
  /-- Cxkk RND Vx, kk (R145) -/
  | rnd (x : Reg) (kk : Byte)
  /-- Dxyn DRW Vx, Vy, n (R172) -/
  | drw (x y : Reg) (n : Nibble)
  /-- Ex9E SKP Vx (R180) -/
  | skp (x : Reg)
  /-- ExA1 SKNP Vx (R181) -/
  | sknp (x : Reg)
  /-- Fx07 LD Vx, DT (R186) -/
  | ldVxDt (x : Reg)
  /-- Fx0A LD Vx, K (R184) -/
  | ldVxK (x : Reg)
  /-- Fx15 LD DT, Vx (R187) -/
  | ldDtVx (x : Reg)
  /-- Fx18 LD ST, Vx (R188) -/
  | ldStVx (x : Reg)
  /-- Fx1E ADD I, Vx (R152) -/
  | addIVx (x : Reg)
  /-- Fx29 LD F, Vx (R154) -/
  | ldFVx (x : Reg)
  /-- Fx33 LD B, Vx (R156) -/
  | ldBVx (x : Reg)
  /-- Fx55 LD [I], Vx (R158) -/
  | ldMemVx (x : Reg)
  /-- Fx65 LD Vx, [I] (R160) -/
  | ldVxMem (x : Reg)
  /-- any other word (R190); the word is kept for the diagnostic -/
  | unknown (w : OpWord)
  deriving DecidableEq, Repr

end Sys2Proof
end

