-- ==== Sys2Proof/WellFormed.lean ====
section
/-! DEFINITION. The well-formed instructions. Every operand's range is its type's (R73), so the one
check left is that `unknown w` holds a word of the sets of 30_encoding.md R76. -/

namespace Sys2Proof

/-- The sets of R76, word by word, with the configuration's alternatives for families 0x0, 0x5 and
0x9. It is written on the word's number, apart from the decoder. -/
def unknownWord (c : Config) (w : OpWord) : Bool :=
  match w.toNat / 0x1000 with
  | 0x0 =>
    match c.zeroFamilyMatch with
    | .exact   => w.toNat != 0x00E0 && w.toNat != 0x00EE
    | .lowByte => w.toNat % 256 != 0xE0 && w.toNat % 256 != 0xEE
  | 0x5 | 0x9 => c.strictLowNibble && w.toNat % 16 != 0
  | 0x8 => [0x8, 0x9, 0xA, 0xB, 0xC, 0xD, 0xF].contains (w.toNat % 16)
  | 0xE => !([0x9E, 0xA1].contains (w.toNat % 256))
  | 0xF => !([0x07, 0x0A, 0x15, 0x18, 0x1E, 0x29, 0x33, 0x55, 0x65].contains (w.toNat % 256))
  | _   => false

/-- Whether an instruction is one that some word encodes under configuration `c`. -/
def wellFormed (c : Config) : Instr → Bool
  | .cls | .ret | .jp _ | .call _ | .seImm _ _ | .sneImm _ _ | .seReg _ _ | .ldImm _ _
  | .addImm _ _ | .ldReg _ _ | .orReg _ _ | .andReg _ _ | .xorReg _ _ | .addReg _ _ | .subReg _ _
  | .shr _ _ | .subnReg _ _ | .shl _ _ | .sneReg _ _ | .ldI _ | .jpV0 _ | .rnd _ _ | .drw _ _ _
  | .skp _ | .sknp _ | .ldVxDt _ | .ldVxK _ | .ldDtVx _ | .ldStVx _ | .addIVx _ | .ldFVx _
  | .ldBVx _ | .ldMemVx _ | .ldVxMem _ => true
  | .unknown w => unknownWord c w

abbrev WellFormed (c : Config) (i : Instr) : Prop := wellFormed c i = true

end Sys2Proof
end

