-- ==== Sys2Proof/Decode.lean ====
section
/-! DEFINITION. The decoder (30_encoding.md R74, R76) as a total function of the word and the
configuration, and the encoder (R72, R75). -/

namespace Sys2Proof

/-! ### Register numbers as bits -/

/-- The register a 4-bit field names (R73). -/
def Reg.ofBits (b : Nibble) : Reg := ⟨b.toNat, b.isLt⟩

/-- The 4-bit field that names a register. -/
def Reg.bits (r : Reg) : Nibble := BitVec.ofNat 4 r.val

/-! ### The fields of an opcode word (R71) -/

/-- Field t, the instruction family: w[15:12]. -/
def fieldT (w : OpWord) : Nibble := w.extractLsb' 12 4

/-- Field x: w[11:8]. -/
def fieldX (w : OpWord) : Reg := Reg.ofBits (w.extractLsb' 8 4)

/-- Field y: w[7:4]. -/
def fieldY (w : OpWord) : Reg := Reg.ofBits (w.extractLsb' 4 4)

/-- Field n: w[3:0]. -/
def fieldN (w : OpWord) : Nibble := w.extractLsb' 0 4

/-- Field kk: w[7:0]. -/
def fieldKK (w : OpWord) : Byte := w.extractLsb' 0 8

/-- Field nnn: w[11:0]. -/
def fieldNNN (w : OpWord) : Addr := w.extractLsb' 0 12

/-! ### The decoder, family by family where families overlap -/

/-- Whether a word of family 0x0 is the instruction whose low byte is `b`: by the whole word under
EXACT, by the low byte under LOW_BYTE (R76, C12). -/
def zeroMatches (c : Config) (w : OpWord) (b : Byte) : Bool :=
  match c.zeroFamilyMatch with
  | .exact   => w == (0x00#8 ++ b : BitVec 16)
  | .lowByte => fieldKK w == b

/-- Family 0x0 (R74). -/
def decodeZero (c : Config) (w : OpWord) : Instr :=
  if zeroMatches c w 0xE0 then .cls
  else if zeroMatches c w 0xEE then .ret
  else .unknown w

/-- Whether families 0x5 and 0x9 take a word: low nibble 0, or any under STRICT_LOW_NIBBLE = false
(R76). -/
def lowNibbleMatches (c : Config) (w : OpWord) : Bool :=
  fieldN w == 0x0#4 || !c.strictLowNibble

/-- Family 0x8, by the low nibble (R74). -/
def decodeAlu (w : OpWord) : Instr :=
  match fieldN w with
  | 0x0#4 => .ldReg (fieldX w) (fieldY w)
  | 0x1#4 => .orReg (fieldX w) (fieldY w)
  | 0x2#4 => .andReg (fieldX w) (fieldY w)
  | 0x3#4 => .xorReg (fieldX w) (fieldY w)
  | 0x4#4 => .addReg (fieldX w) (fieldY w)
  | 0x5#4 => .subReg (fieldX w) (fieldY w)
  | 0x6#4 => .shr (fieldX w) (fieldY w)
  | 0x7#4 => .subnReg (fieldX w) (fieldY w)
  | 0xE#4 => .shl (fieldX w) (fieldY w)
  | _     => .unknown w

/-- Family 0xE, by the low byte (R74). -/
def decodeKey (w : OpWord) : Instr :=
  match fieldKK w with
  | 0x9E#8 => .skp (fieldX w)
  | 0xA1#8 => .sknp (fieldX w)
  | _      => .unknown w

/-- Family 0xF, by the low byte (R74). -/
def decodeMisc (w : OpWord) : Instr :=
  match fieldKK w with
  | 0x07#8 => .ldVxDt (fieldX w)
  | 0x0A#8 => .ldVxK (fieldX w)
  | 0x15#8 => .ldDtVx (fieldX w)
  | 0x18#8 => .ldStVx (fieldX w)
  | 0x1E#8 => .addIVx (fieldX w)
  | 0x29#8 => .ldFVx (fieldX w)
  | 0x33#8 => .ldBVx (fieldX w)
  | 0x55#8 => .ldMemVx (fieldX w)
  | 0x65#8 => .ldVxMem (fieldX w)
  | _      => .unknown w

/-- Decode(w) (R74): every word is a known variant or UNKNOWN, and nothing but the word and the
configuration is read. The last arm is family 0xF. -/
def decode (c : Config) (w : OpWord) : Instr :=
  match fieldT w with
  | 0x0#4 => decodeZero c w
  | 0x1#4 => .jp (fieldNNN w)
  | 0x2#4 => .call (fieldNNN w)
  | 0x3#4 => .seImm (fieldX w) (fieldKK w)
  | 0x4#4 => .sneImm (fieldX w) (fieldKK w)
  | 0x5#4 => if lowNibbleMatches c w then .seReg (fieldX w) (fieldY w) else .unknown w
  | 0x6#4 => .ldImm (fieldX w) (fieldKK w)
  | 0x7#4 => .addImm (fieldX w) (fieldKK w)
  | 0x8#4 => decodeAlu w
  | 0x9#4 => if lowNibbleMatches c w then .sneReg (fieldX w) (fieldY w) else .unknown w
  | 0xA#4 => .ldI (fieldNNN w)
  | 0xB#4 => .jpV0 (fieldNNN w)
  | 0xC#4 => .rnd (fieldX w) (fieldKK w)
  | 0xD#4 => .drw (fieldX w) (fieldY w) (fieldN w)
  | 0xE#4 => decodeKey w
  | _     => decodeMisc w

/-! ### Bytes (R51, R70) -/

/-- Why a list of bytes is no instruction: fewer than two bytes. Every pair of bytes is one. -/
inductive DecodeError where
  | truncated
  deriving DecidableEq, Repr

/-- The opcode word of two consecutive bytes: the first, at the lower address, is the high byte
(R51). -/
def wordOfBytes (hi lo : Byte) : OpWord := hi ++ lo

/-- Read one instruction from a list of bytes and give the bytes after it. -/
def decodeBytes (c : Config) : List Byte → Except DecodeError (Instr × List Byte)
  | hi :: lo :: rest => .ok (decode c (wordOfBytes hi lo), rest)
  | [_]              => .error .truncated
  | []               => .error .truncated

/-! ### The encoder (R72, R75) -/

/-- The opcode word of an instruction. -/
def encode : Instr → OpWord
  | .cls         => 0x00E0#16
  | .ret         => 0x00EE#16
  | .jp nnn      => 0x1#4 ++ nnn
  | .call nnn    => 0x2#4 ++ nnn
  | .seImm x kk  => 0x3#4 ++ x.bits ++ kk
  | .sneImm x kk => 0x4#4 ++ x.bits ++ kk
  | .seReg x y   => 0x5#4 ++ x.bits ++ y.bits ++ 0x0#4
  | .ldImm x kk  => 0x6#4 ++ x.bits ++ kk
  | .addImm x kk => 0x7#4 ++ x.bits ++ kk
  | .ldReg x y   => 0x8#4 ++ x.bits ++ y.bits ++ 0x0#4
  | .orReg x y   => 0x8#4 ++ x.bits ++ y.bits ++ 0x1#4
  | .andReg x y  => 0x8#4 ++ x.bits ++ y.bits ++ 0x2#4
  | .xorReg x y  => 0x8#4 ++ x.bits ++ y.bits ++ 0x3#4
  | .addReg x y  => 0x8#4 ++ x.bits ++ y.bits ++ 0x4#4
  | .subReg x y  => 0x8#4 ++ x.bits ++ y.bits ++ 0x5#4
  | .shr x y     => 0x8#4 ++ x.bits ++ y.bits ++ 0x6#4
  | .subnReg x y => 0x8#4 ++ x.bits ++ y.bits ++ 0x7#4
  | .shl x y     => 0x8#4 ++ x.bits ++ y.bits ++ 0xE#4
  | .sneReg x y  => 0x9#4 ++ x.bits ++ y.bits ++ 0x0#4
  | .ldI nnn     => 0xA#4 ++ nnn
  | .jpV0 nnn    => 0xB#4 ++ nnn
  | .rnd x kk    => 0xC#4 ++ x.bits ++ kk
  | .drw x y n   => 0xD#4 ++ x.bits ++ y.bits ++ n
  | .skp x       => 0xE#4 ++ x.bits ++ 0x9E#8
  | .sknp x      => 0xE#4 ++ x.bits ++ 0xA1#8
  | .ldVxDt x    => 0xF#4 ++ x.bits ++ 0x07#8
  | .ldVxK x     => 0xF#4 ++ x.bits ++ 0x0A#8
  | .ldDtVx x    => 0xF#4 ++ x.bits ++ 0x15#8
  | .ldStVx x    => 0xF#4 ++ x.bits ++ 0x18#8
  | .addIVx x    => 0xF#4 ++ x.bits ++ 0x1E#8
  | .ldFVx x     => 0xF#4 ++ x.bits ++ 0x29#8
  | .ldBVx x     => 0xF#4 ++ x.bits ++ 0x33#8
  | .ldMemVx x   => 0xF#4 ++ x.bits ++ 0x55#8
  | .ldVxMem x   => 0xF#4 ++ x.bits ++ 0x65#8
  | .unknown w   => w

/-- The two bytes of an opcode word as memory holds them, high byte first (R51). -/
def bytesOfWord (w : OpWord) : Byte × Byte := (w.extractLsb' 8 8, w.extractLsb' 0 8)

/-- The bytes of an instruction, in increasing address order. -/
def encodeBytes (i : Instr) : List Byte :=
  [(bytesOfWord (encode i)).1, (bytesOfWord (encode i)).2]

/-! ### The opcode table as rows of match and mask -/

/-- The opcode word whose low `nbits` bits are those of `w`, every higher bit 0. Opcode words are one
word long, so the table's bit numbers are the word's own. -/
def tableWord (nbits w : Nat) : OpWord := BitVec.ofNat 16 (w % 2 ^ nbits)

/-- The instruction the decoder reads, under the default configuration, from the bytes of a table
word laid out as memory holds them. -/
def decodeTableWord (nbits w : Nat) : Option Instr :=
  match decodeBytes Machine.defaultConfig
      [(bytesOfWord (tableWord nbits w)).1, (bytesOfWord (tableWord nbits w)).2] with
  | .ok (i, _) => some i
  | .error _   => none

/-- The fixed bits of an instruction's row of the opcode table (spec/opcode_table.json, column
match). -/
def opcodeMatch : Instr → OpWord
  | .cls         => 0x00E0
  | .ret         => 0x00EE
  | .jp _        => 0x1000
  | .call _      => 0x2000
  | .seImm _ _   => 0x3000
  | .sneImm _ _  => 0x4000
  | .seReg _ _   => 0x5000
  | .ldImm _ _   => 0x6000
  | .addImm _ _  => 0x7000
  | .ldReg _ _   => 0x8000
  | .orReg _ _   => 0x8001
  | .andReg _ _  => 0x8002
  | .xorReg _ _  => 0x8003
  | .addReg _ _  => 0x8004
  | .subReg _ _  => 0x8005
  | .shr _ _     => 0x8006
  | .subnReg _ _ => 0x8007
  | .shl _ _     => 0x800E
  | .sneReg _ _  => 0x9000
  | .ldI _       => 0xA000
  | .jpV0 _      => 0xB000
  | .rnd _ _     => 0xC000
  | .drw _ _ _   => 0xD000
  | .skp _       => 0xE09E
  | .sknp _      => 0xE0A1
  | .ldVxDt _    => 0xF007
  | .ldVxK _     => 0xF00A
  | .ldDtVx _    => 0xF015
  | .ldStVx _    => 0xF018
  | .addIVx _    => 0xF01E
  | .ldFVx _     => 0xF029
  | .ldBVx _     => 0xF033
  | .ldMemVx _   => 0xF055
  | .ldVxMem _   => 0xF065
  | .unknown _   => 0x0000

/-- Which bits of an instruction's word its row of the opcode table fixes (column mask). -/
def opcodeMask : Instr → OpWord
  | .cls | .ret => 0xFFFF
  | .jp _ | .call _ | .seImm _ _ | .sneImm _ _ | .ldImm _ _ | .addImm _ _ | .ldI _ | .jpV0 _
  | .rnd _ _ | .drw _ _ _ => 0xF000
  | .seReg _ _ | .ldReg _ _ | .orReg _ _ | .andReg _ _ | .xorReg _ _ | .addReg _ _ | .subReg _ _
  | .shr _ _ | .subnReg _ _ | .shl _ _ | .sneReg _ _ => 0xF00F
  | .skp _ | .sknp _ | .ldVxDt _ | .ldVxK _ | .ldDtVx _ | .ldStVx _ | .addIVx _ | .ldFVx _
  | .ldBVx _ | .ldMemVx _ | .ldVxMem _ => 0xF0FF
  | .unknown _ => 0x0000

end Sys2Proof
end

