-- ==== Sys2Proof/Machine/State.lean ====
section
/-! DEFINITION. The machine's state as plain data (10_state.md), the reasons a step can stop, and the
state after reset (R41). -/

namespace Sys2Proof.Machine

/-! ### Faults and refusals -/

/-- The five fatal execution errors of 60_exceptions.md R200, each with the info it records.
The spec describes what raising one does (R205: the step's writes are discarded and the mode becomes
Faulted), so a meaning that raises one answers a NEXT state in that mode, by the one operation
`State.raise`; no step answers `Outcome.fault` (log entry 4). Safe. -/
inductive Fault where
  /-- Code 1, raised by the fetch at pc = 0xFFF and by Dxyn, Fx33, Fx55, Fx65 past the last address;
  records the first address at or above 4096 that was asked for. Safe: the spec's own fault. -/
  | memoryOutOfBounds (addr : Nat)
  /-- Code 2, raised by 2nnn with 16 entries on the stack. Safe: the spec's own fault. -/
  | stackOverflow
  /-- Code 3, raised by 00EE with an empty stack. Safe: the spec's own fault. -/
  | stackUnderflow
  /-- Code 4, raised by Ex9E and ExA1 when V[x] is above 15; records V[x]. Safe: the spec's own
  fault (D17). -/
  | invalidKeyIndex (vx : Byte)
  /-- Code 5, raised by Fx29 when V[x] is above 15; records V[x]. Safe: the spec's own fault (D18). -/
  | invalidFontDigit (vx : Byte)
  deriving DecidableEq, Repr

/-- Why a step gives no next state and no fault. -/
inductive Refusal where
  /-- Raised by an arm of `exec` whose instruction has no meaning yet. Safe. No arm answers it. -/
  | notModelled (mnemonic : String)
  /-- Raised by the Reset event when a load does not fit in memory, a ROM of more than 3584 bytes
  above all: Reset fails and there is no state to step (R240, R244, I15; log entry 6). Safe. No
  instruction answers it. -/
  | loadError (offset length : Nat)
  deriving DecidableEq, Repr

/-- A fault record (R36): the kind with the info it records, and the address of the instruction whose
step faulted. -/
structure FaultRecord where
  kind : Fault
  pc   : Addr
  deriving DecidableEq, Repr

/-- The run state (R29). -/
inductive Mode where
  | running
  /-- Waiting in Fx0A for a key, with the register that receives it. -/
  | blocked (x : Reg)
  | faulted (f : FaultRecord)
  deriving DecidableEq, Repr

/-- A record of the diagnostic log: an unknown opcode's address and word (R37, R191). -/
structure Diagnostic where
  addr : Addr
  word : OpWord
  deriving DecidableEq, Repr

/-! ### Memory, framebuffer, keypad -/

/-- Memory (R31) in canonical form: addresses strictly rising, and no entry equal to what an unlisted
address reads as (`Memory.unlisted`, Sys2Proof/Machine/Memory.lean). -/
abbrev Memory := List Host.Cell

/-- The framebuffer (R34): 32 rows, top to bottom, of 64 pixels, left to right; true = on. -/
abbrev Framebuffer := Vector (Vector Bool 64) 32

/-- The state of the 16 keys (R35); true = down. -/
abbrev Keypad := Vector Bool 16

/-! ### Events -/

/-- The atomic events of R9 and R221, and `set_key`, which R219 gives as a KeySample. The random byte
of a Step is the free value `Config.freeByte` (log entry 2), so Step carries none. -/
inductive Event where
  | step
  | tick
  | keySample (k16 : Keypad)
  | setKey (index : Nat) (down : Bool)
  | snapshot
  | reset (rom : List Byte)
  deriving DecidableEq, Repr

/-- How the host goes on when the events it has pending are delivered (R220; log entry 3). -/
inductive Course where
  /-- The events listed, over and over, for ever; it never runs out. -/
  | cycle (first : Event) (rest : List Event)
  /-- Any Step, Tick, KeySample or Snapshot at each turn: the free values `Config.hostEvent`. -/
  | free
  deriving DecidableEq, Repr

/-- The order in which the host delivers its events (R220): a finite part, and an infinite course
after it. DESIGN CHOICE, log entry 3. -/
structure Schedule where
  /-- The events that come next, the first one first. -/
  pending   : List Event
  /-- What comes when none is pending. -/
  course    : Course
  /-- How many events of a free course have come. It only indexes `Config.hostEvent`. -/
  delivered : Nat
  deriving DecidableEq, Repr

/-- What a Snapshot returns (R221, R222, R223). -/
structure Snapshot where
  fb          : Framebuffer
  soundActive : Bool
  mode        : Mode
  deriving DecidableEq, Repr

/-! ### The state -/

/-- The complete machine state (10_state.md), the configuration it runs under (R8), and the model's
own two fields `draws` and `schedule`. -/
structure State where
  /-- V0 to VF (R20). -/
  v        : Vector Byte 16
  /-- The index register I (R25). -/
  index    : Addr
  /-- The program counter (R23). -/
  pc       : Addr
  /-- The call stack, bottom first: the last entry is the one pushed last (R26). -/
  stack    : List Addr
  /-- The delay timer DT (R27). -/
  dt       : Byte
  /-- The sound timer ST (R28). -/
  st       : Byte
  /-- Memory (R31). -/
  mem      : Memory
  /-- The framebuffer (R34). -/
  fb       : Framebuffer
  /-- The keypad (R35). -/
  key      : Keypad
  /-- The run state (R29). -/
  mode     : Mode
  /-- The key latch of Fx0A (R30). -/
  latch    : Option Key
  /-- The diagnostic log, oldest record first (R37). -/
  log      : List Diagnostic
  /-- The configuration (R8), changed by no event. DESIGN CHOICE, log entry 1. -/
  config   : Config
  /-- The model's own: how many random bytes have been drawn. It only indexes the free value
  `Config.freeByte`. DESIGN CHOICE, log entry 2. -/
  draws    : Nat
  /-- The model's own: the order of the host's events (R220). DESIGN CHOICE, log entry 3. -/
  schedule : Schedule
  deriving DecidableEq, Repr

/-- The machine right after Reset with an empty ROM under the default configuration (R41, R240).
Memory lists nothing: an unlisted address reads as the reset contents. The host issues Steps for ever
(the model's own choice, log entry 3). -/
def State.reset : State where
  v        := Vector.replicate 16 0
  index    := 0x000
  pc       := 0x200
  stack    := []
  dt       := 0
  st       := 0
  mem      := []
  fb       := Vector.replicate 32 (Vector.replicate 64 false)
  key      := Vector.replicate 16 false
  mode     := .running
  latch    := none
  log      := []
  config   := defaultConfig
  draws    := 0
  schedule := { pending := [], course := .cycle .step [], delivered := 0 }

end Sys2Proof.Machine
end

