-- ==== Sys2Proof/Machine/Memory.lean ====
section
/-! DEFINITION. Memory: 4096 bytes (10_state.md R31), its canonical form, and the primitives MemRead
and MemWrite and the load operation (20_memory.md R52, R53, R54, R66). -/

namespace Sys2Proof.Machine

/-- What an address that memory does not list reads as: the reset contents of the default
configuration, the font at FONT_BASE and 0x00 elsewhere (R32, R33, R41; log entry 5). -/
def Memory.unlisted (a : Nat) : Byte :=
  if defaultConfig.fontBase.toNat ≤ a then
    defaultConfig.fontData.getD (a - defaultConfig.fontBase.toNat) 0x00
  else 0x00

/-- Whether every address listed is above `lo`, rising, inside memory, and no entry equals what its
address reads as when unlisted. -/
def Memory.wfAbove : Nat → Memory → Bool
  | _,  []              => true
  | lo, (a, b) :: rest  =>
    decide (lo ≤ a) && decide (a < memSize) && b != Memory.unlisted a && Memory.wfAbove (a + 1) rest

/-- Memory is in canonical form. -/
def Memory.wf (m : Memory) : Bool := Memory.wfAbove 0 m

/-- The byte at an address. -/
def Memory.read : Memory → Nat → Byte
  | [],             a => Memory.unlisted a
  | (c, b) :: rest, a => if a = c then b else Memory.read rest a

/-- `m` with the entry for `a` put in front, when it says something an unlisted address does not. -/
def Memory.consByte (a : Nat) (b : Byte) (m : Memory) : Memory :=
  if b = Memory.unlisted a then m else (a, b) :: m

/-- Write one byte, keeping the canonical form. -/
def Memory.write : Memory → Nat → Byte → Memory
  | [],             a, b => Memory.consByte a b []
  | (c, d) :: rest, a, b =>
    if a < c then Memory.consByte a b ((c, d) :: rest)
    else if a = c then Memory.consByte a b rest
    else (c, d) :: Memory.write rest a b

/-- Write bytes at consecutive addresses, in increasing address order. -/
def Memory.writeAll : Memory → Nat → List Byte → Memory
  | m, _, []      => m
  | m, a, b :: bs => Memory.writeAll (m.write a b) (a + 1) bs

/-- MemRead(a, 1): the byte at `a`, or MemoryOutOfBounds(a) (R52). -/
def readByte (m : Memory) (a : Nat) : Except Fault Byte :=
  if a < memSize then .ok (m.read a) else .error (.memoryOutOfBounds a)

/-- MemWrite(a, 1, v): write the byte at `a`, or MemoryOutOfBounds(a) (R53). -/
def writeByte (m : Memory) (a : Nat) (b : Byte) : Except Fault Memory :=
  if a < memSize then .ok (m.write a b) else .error (.memoryOutOfBounds a)

/-- Read `n` bytes at consecutive addresses, one byte at a time in increasing address order (R54). -/
def readRange (m : Memory) (a : Nat) : Nat → Except Fault (List Byte)
  | 0     => .ok []
  | n + 1 =>
    match readByte m a with
    | .error f => .error f
    | .ok b    => (readRange m (a + 1) n).map (b :: ·)

/-- Write bytes at consecutive addresses, one byte at a time in increasing address order (R54). -/
def writeRange (m : Memory) (a : Nat) : List Byte → Except Fault Memory
  | []      => .ok m
  | b :: bs =>
    match writeByte m a b with
    | .error f => .error f
    | .ok m'   => writeRange m' (a + 1) bs

/-- load(bytes, offset) (R66): all of the bytes, or an error and nothing written. -/
def loadBytes (m : Memory) (offset : Nat) (bytes : List Byte) : Except Refusal Memory :=
  if offset + bytes.length ≤ memSize then .ok (m.writeAll offset bytes)
  else .error (.loadError offset bytes.length)

/-- Memory with every byte 0x00, what step 2 of Reset leaves (R240): 0x00 written over the default
font, the one part of memory an unlisted address does not read 0x00 from. -/
def zeroedMemory : Memory :=
  Memory.writeAll [] defaultConfig.fontBase.toNat (List.replicate defaultConfig.fontData.length 0x00)

end Sys2Proof.Machine
end

