-- ==== Sys2Proof/Machine/Ops.lean ====
section
/-! DEFINITION. The named operations over the state: registers, pc, stack, and raising a fault
(60_exceptions.md R205). A meaning runs on the state at the start of its step, where pc is the
instruction's own address `a`; `State.advance` gives pc its default successor `next` (30_encoding.md
R85). -/

namespace Sys2Proof.Machine

/-! ### General registers (R20) -/

/-- Read V[r]. -/
def State.getV (s : State) (r : Reg) : Byte := s.v.get r

/-- Write V[r]. -/
def State.setV (s : State) (r : Reg) (b : Byte) : State := { s with v := s.v.set r.val b r.isLt }

/-- VF, the register the flag goes to (R21). -/
def regF : Reg := 15

/-- Write Vx, then the flag into VF, last (R143): with x = 0xF the flag stays. -/
def State.setVThenFlag (s : State) (x : Reg) (b flag : Byte) : State :=
  (s.setV x b).setV regF flag

/-- Write bytes to the registers from number `i` on, in increasing order (the loop of R160). -/
def setRegsFrom (v : Vector Byte 16) : Nat → List Byte → Vector Byte 16
  | _, []      => v
  | i, b :: bs => setRegsFrom (v.setIfInBounds i b) (i + 1) bs

/-! ### Program counter (R23, R24) -/

/-- The default successor: pc <- (pc + 2) mod 4096. -/
def State.advance (s : State) : State := { s with pc := s.pc + 2 }

/-- pc <- target. -/
def State.setPc (s : State) (target : Addr) : State := { s with pc := target }

/-- A skip: pc <- (next + 2) mod 4096 when the condition holds, else pc <- next (R110). -/
def State.skipIf (s : State) (cond : Bool) : State :=
  if cond then s.setPc (s.pc + 2 + 2) else s.advance

/-! ### The other registers -/

/-- I <- a (R25). -/
def State.setIndex (s : State) (a : Addr) : State := { s with index := a }

/-- DT <- b (R27). -/
def State.setDt (s : State) (b : Byte) : State := { s with dt := b }

/-- ST <- b (R28). -/
def State.setSt (s : State) (b : Byte) : State := { s with st := b }

/-- Replace memory's contents. -/
def State.setMem (s : State) (m : Memory) : State := { s with mem := m }

/-- Replace the framebuffer's contents. -/
def State.setFb (s : State) (fb : Framebuffer) : State := { s with fb := fb }

/-- Replace the general registers' contents. -/
def State.setRegs (s : State) (v : Vector Byte 16) : State := { s with v := v }

/-- Append a record to the diagnostic log (R191). -/
def State.emit (s : State) (d : Diagnostic) : State := { s with log := s.log ++ [d] }

/-- Count one more random byte as drawn, so that the next draw is another free value (log entry 2). -/
def State.countDraw (s : State) : State := { s with draws := s.draws + 1 }

/-! ### The call stack (R26) -/

/-- push(a): append, or StackOverflow when the stack already holds 16 entries. -/
def State.push (s : State) (a : Addr) : Except Fault State :=
  if s.stack.length < stackDepth then .ok { s with stack := s.stack ++ [a] }
  else .error .stackOverflow

/-- pc <- pop(): remove the entry pushed last and go to it, or StackUnderflow on an empty stack. -/
def State.popToPc (s : State) : Except Fault State :=
  match s.stack.getLast? with
  | none   => .error .stackUnderflow
  | some a => .ok { s with stack := s.stack.dropLast, pc := a }

/-! ### Fault entry (R205) and the way out of it

There is no return from a fault (R207): the one way out of Faulted is Reset, `State.resetWith`
in Sys2Proof/Machine/Events.lean. -/

/-- The code number of a fault kind (R200). -/
def Fault.code : Fault → Nat
  | .memoryOutOfBounds _ => 1
  | .stackOverflow       => 2
  | .stackUnderflow      => 3
  | .invalidKeyIndex _   => 4
  | .invalidFontDigit _  => 5

/-- The info a fault records (R36, R200). -/
def Fault.info : Fault → Option Nat
  | .memoryOutOfBounds a => some a
  | .stackOverflow       => none
  | .stackUnderflow      => none
  | .invalidKeyIndex v   => some v.toNat
  | .invalidFontDigit v  => some v.toNat

/-- raise F, on the state at the start of the step: nothing changes but the mode, whose record holds
the fault and the address the step fetched from (R205). -/
def State.raise (s : State) (f : Fault) : State := { s with mode := .faulted ⟨f, s.pc⟩ }

/-- End a step whose work from `s` is `r`: the new state, or the fault raised on `s` with every write
of the step discarded (R205). -/
def finish (s : State) (r : Except Fault State) : Host.Outcome State Fault Refusal :=
  match r with
  | .ok t    => .next t
  | .error f => .next (s.raise f)

end Sys2Proof.Machine
end

