-- ==== Sys2Proof/Machine/Operands.lean ====
section
/-! DEFINITION. The operand forms: the effective address I + k (20_memory.md R56), the operand of a
shift (R136), the decimal digits of Fx33 (R156), the glyph of a digit (R154), a key number (R182),
and the registers Fx55 stores (R158). -/

namespace Sys2Proof.Machine

/-- The effective address of the k-th byte of an access based on I: the exact sum, not reduced modulo
4096 (R56). -/
def State.effAddr (s : State) (k : Nat) : Nat := s.index.toNat + k

/-- The operand of SHR and SHL: Vx or Vy, as SHIFT_SOURCE says (R136, R140). -/
def State.shiftOperand (s : State) (x y : Reg) : Byte :=
  match s.config.shiftSource with
  | .vx => s.getV x
  | .vy => s.getV y

/-- The hundreds, tens and ones digits of a byte, in the order Fx33 stores them (R156). -/
def bcdDigits (b : Byte) : List Byte := [b / 100, (b / 10) % 10, b % 10]

/-- The address of a hexadecimal digit's glyph, FONT_BASE + 5 * digit, or InvalidFontDigit above 15
(R154). -/
def State.glyphAddr (s : State) (digit : Byte) : Except Fault Addr :=
  if digit.toNat ≤ 0xF then .ok (BitVec.ofNat 12 (s.config.fontBase.toNat + 5 * digit.toNat))
  else .error (.invalidFontDigit digit)

/-- A register's value used as a key number, or InvalidKeyIndex above 15 (R182). -/
def keyIndex (b : Byte) : Except Fault Key :=
  if h : b.toNat < 16 then .ok ⟨b.toNat, h⟩ else .error (.invalidKeyIndex b)

/-- Whether a key is down, as the last KeySample left it (R35). -/
def State.keyDown (s : State) (k : Key) : Bool := s.key.get k

/-- V0 to Vx, in order (R158). -/
def State.regsUpTo (s : State) (x : Reg) : List Byte := s.v.toList.take (x.val + 1)

/-- What Fx55 and Fx65 leave in I: I, or I + x + 1 modulo 4096, as LOADSTORE_I_MODE says (R158,
R160). -/
def State.indexAfterBlock (s : State) (x : Reg) : Addr :=
  match s.config.loadStoreIMode with
  | .unchanged => s.index
  | .advance   => s.index + BitVec.ofNat 12 (x.val + 1)

/-- The target of Bnnn: (nnn + V0) mod 4096 (R112). -/
def State.jumpV0Target (s : State) (nnn : Addr) : Addr := nnn + (s.getV 0).zeroExtend 12

end Sys2Proof.Machine
end

