-- ==== Sys2Proof/Machine/Flags.lean ====
section
/-! DEFINITION. The values the flag VF takes (10_state.md R42, 41_register_alu.md R132 to R140). -/

namespace Sys2Proof.Machine

/-- A truth value as a flag byte: 1 or 0. -/
def flagByte (b : Bool) : Byte := if b then 1 else 0

/-- The carry of 8xy4: 1 if the exact sum is above 255 (R132). -/
def carryFlag (a b : Byte) : Byte := flagByte (decide (255 < a.toNat + b.toNat))

/-- The no-borrow flag of `a - b` in 8xy5 and 8xy7: 1 if `a >= b` (R134, R138). -/
def noBorrowFlag (a b : Byte) : Byte := flagByte (decide (b.toNat ≤ a.toNat))

/-- The bit a right shift by one shifts out, bit 0 (R136). -/
def shiftedOutRight (src : Byte) : Byte := src &&& 1

/-- The bit a left shift by one shifts out, bit 7 (R140). -/
def shiftedOutLeft (src : Byte) : Byte := (src >>> 7) &&& 1

end Sys2Proof.Machine
end

