-- ==== Sys2Proof/Machine/Display.lean ====
section
/-! DEFINITION. The display: 00E0 and Dxyn (43_display.md). -/

namespace Sys2Proof.Machine

/-- The framebuffer with every pixel off (R170). -/
def clearFb : Framebuffer := Vector.replicate 32 (Vector.replicate 64 false)

/-- Pixel fb[y][x] (R34). -/
def Framebuffer.pixel (fb : Framebuffer) (x : Fin 64) (y : Fin 32) : Bool := (fb.get y).get x

/-- fb[y][x] <- fb[y][x] ^ 1. -/
def Framebuffer.toggle (fb : Framebuffer) (x : Fin 64) (y : Fin 32) : Framebuffer :=
  fb.set y.val ((fb.get y).set x.val (!fb.pixel x y) x.isLt) y.isLt

/-- XOR one lit pixel of a sprite onto (framebuffer, collision): a pixel that was on is a collision
(R172). -/
def drawPixel (p : Framebuffer × Bool) (x : Fin 64) (y : Fin 32) : Framebuffer × Bool :=
  (p.1.toggle x y, p.2 || p.1.pixel x y)

/-- Whether sprite column `c` of a row byte is lit: bit 7 - c (R176). -/
def rowBit (row : Byte) (c : Nat) : Bool := row.getLsbD (7 - c)

/-- The inner loop of R172: sprite row `r`, columns 0 to 7, at (x0, y0), wrapping on both axes. -/
def drawRow (x0 y0 r : Nat) (row : Byte) (p : Framebuffer × Bool) : Framebuffer × Bool :=
  (List.range 8).foldl
    (fun p c => if rowBit row c then drawPixel p (Fin.ofNat 64 (x0 + c)) (Fin.ofNat 32 (y0 + r)) else p) p

/-- The outer loop of R172: the sprite's rows from number `r` on. -/
def drawRows (x0 y0 : Nat) : Nat → List Byte → Framebuffer × Bool → Framebuffer × Bool
  | _, [],          p => p
  | r, row :: rows, p => drawRows x0 y0 (r + 1) rows (drawRow x0 y0 r row p)

/-- Draw a sprite with its top-left pixel at (vx mod 64, vy mod 32): the framebuffer, and whether any
pixel went from on to off (R172). -/
def drawSprite (fb : Framebuffer) (vx vy : Byte) (rows : List Byte) : Framebuffer × Bool :=
  drawRows (vx.toNat % 64) (vy.toNat % 32) 0 rows (fb, false)

/-- 00E0 CLS (R170). -/
def execCls (s : State) : Host.Outcome State Fault Refusal := .next (s.advance.setFb clearFb)

/-- Dxyn DRW (R172): every row is read before any pixel changes; VF is written last. -/
def execDrw (x y : Reg) (n : Nibble) (s : State) : Host.Outcome State Fault Refusal :=
  finish s ((readRange s.mem (s.effAddr 0) n.toNat).map fun rows =>
    let drawn := drawSprite s.fb (s.getV x) (s.getV y) rows
    (s.advance.setFb drawn.1).setV regF (flagByte drawn.2))

end Sys2Proof.Machine
end

