-- ==== Sys2Proof/Machine/IndexMemory.lean ====
section
/-! DEFINITION. The index register and memory: Annn, Fx1E, Fx29, Fx33, Fx55, Fx65
(42_index_memory.md). -/

namespace Sys2Proof.Machine

/-- Annn LD I, nnn (R150). -/
def execLdI (nnn : Addr) (s : State) : Host.Outcome State Fault Refusal :=
  .next (s.advance.setIndex nnn)

/-- Fx1E ADD I, Vx (R152): modulo 4096, VF not written. -/
def execAddIVx (x : Reg) (s : State) : Host.Outcome State Fault Refusal :=
  .next (s.advance.setIndex (s.index + (s.getV x).zeroExtend 12))

/-- Fx29 LD F, Vx (R154). -/
def execLdFVx (x : Reg) (s : State) : Host.Outcome State Fault Refusal :=
  finish s ((s.glyphAddr (s.getV x)).map s.advance.setIndex)

/-- Fx33 LD B, Vx (R156). -/
def execLdBVx (x : Reg) (s : State) : Host.Outcome State Fault Refusal :=
  finish s ((writeRange s.mem (s.effAddr 0) (bcdDigits (s.getV x))).map s.advance.setMem)

/-- Fx55 LD [I], Vx (R158). -/
def execLdMemVx (x : Reg) (s : State) : Host.Outcome State Fault Refusal :=
  finish s ((writeRange s.mem (s.effAddr 0) (s.regsUpTo x)).map
    (s.advance.setIndex (s.indexAfterBlock x)).setMem)

/-- Fx65 LD Vx, [I] (R160). -/
def execLdVxMem (x : Reg) (s : State) : Host.Outcome State Fault Refusal :=
  finish s ((readRange s.mem (s.effAddr 0) (x.val + 1)).map fun bytes =>
    (s.advance.setIndex (s.indexAfterBlock x)).setRegs (setRegsFrom s.v 0 bytes))

end Sys2Proof.Machine
end

