-- ==== Sys2Proof/Machine/KeypadTimers.lean ====
section
/-! DEFINITION. Keypad and timers: Ex9E, ExA1, Fx0A, Fx07, Fx15, Fx18 (44_keypad_timers.md). -/

namespace Sys2Proof.Machine

/-- Ex9E SKP Vx (R180). -/
def execSkp (x : Reg) (s : State) : Host.Outcome State Fault Refusal :=
  finish s ((keyIndex (s.getV x)).map fun k => s.skipIf (s.keyDown k))

/-- ExA1 SKNP Vx (R181). -/
def execSknp (x : Reg) (s : State) : Host.Outcome State Fault Refusal :=
  finish s ((keyIndex (s.getV x)).map fun k => s.skipIf (!s.keyDown k))

/-- Fx0A LD Vx, K (R184), the executing step: pc stays at the instruction and the core waits. -/
def execLdVxK (x : Reg) (s : State) : Host.Outcome State Fault Refusal :=
  .next { s with latch := none, mode := .blocked x }

/-- The step that completes the wait of Fx0A after a press of key `k` (R85, R184). -/
def State.completeWait (s : State) (x : Reg) (k : Key) : State :=
  { (s.advance.setV x (BitVec.ofNat 8 k.val)) with latch := none, mode := .running }

/-- Fx07 LD Vx, DT (R186). -/
def execLdVxDt (x : Reg) (s : State) : Host.Outcome State Fault Refusal :=
  .next (s.advance.setV x s.dt)

/-- Fx15 LD DT, Vx (R187). -/
def execLdDtVx (x : Reg) (s : State) : Host.Outcome State Fault Refusal :=
  .next (s.advance.setDt (s.getV x))

/-- Fx18 LD ST, Vx (R188). -/
def execLdStVx (x : Reg) (s : State) : Host.Outcome State Fault Refusal :=
  .next (s.advance.setSt (s.getV x))

end Sys2Proof.Machine
end

