-- ==== Sys2Proof/Machine/Unknown.lean ====
section
/-! DEFINITION. Unknown opcodes (45_unknown.md). -/

namespace Sys2Proof.Machine

/-- Any other word (R190, R191): a no-op that leaves one diagnostic record. -/
def execUnknown (w : OpWord) (s : State) : Host.Outcome State Fault Refusal :=
  .next (s.advance.emit ⟨s.pc, w⟩)

end Sys2Proof.Machine
end

