-- ==== Sys2Proof/Machine/Events.lean ====
section
/-! DEFINITION. The order of the host's events, and the events of the other agents: Tick, KeySample,
set_key, Snapshot and Reset (60_exceptions.md R215 to R223, 70_reset_and_hazards.md R240, R244). -/

namespace Sys2Proof.Machine

/-! ### Scheduling -/

/-- An event of a free course. -/
def Event.ofClockEvent : ClockEvent → Event
  | .step          => .step
  | .tick          => .tick
  | .keySample k16 => .keySample k16
  | .snapshot      => .snapshot

/-- The event the host delivers next, and the schedule after it (R220). -/
def Schedule.next (h : Schedule) : Event × Schedule :=
  match h.pending, h.course with
  | e :: rest, _             => (e, { h with pending := rest })
  | [],        .cycle e rest => (e, { h with pending := rest })
  | [],        .free         =>
    (Event.ofClockEvent (Config.hostEvent h.delivered), { h with delivered := h.delivered + 1 })

/-! ### Timers -/

/-- Lower a timer by one while it is above zero (R215). -/
def countDown (b : Byte) : Byte := if b = 0 then 0 else b - 1

/-- Tick (R215). -/
def State.tick (s : State) : State :=
  match s.mode with
  | .faulted _ => s
  | .running   => { s with dt := countDown s.dt, st := countDown s.st }
  | .blocked _ => { s with dt := countDown s.dt, st := countDown s.st }

/-- The sound signal (R223). -/
def State.soundActive (s : State) : Bool := decide (0 < s.st.toNat)

/-! ### Keypad -/

/-- The lowest key that is up in `old` and down in `new`, if any went down (R218). -/
def lowestPressed (old new : Keypad) : Option Key :=
  (List.finRange 16).find? fun k => !old.get k && new.get k

/-- The latch after a sample: the lowest key that went down, only in Blocked with an empty latch
(R218). -/
def State.latchAfter (s : State) (k16 : Keypad) : Option Key :=
  match s.mode, s.latch with
  | .blocked _, none   => lowestPressed s.key k16
  | .blocked _, some k => some k
  | .running,   l      => l
  | .faulted _, l      => l

/-- KeySample(k16) (R218). -/
def State.keySample (s : State) (k16 : Keypad) : State :=
  { s with latch := s.latchAfter k16, key := k16 }

/-- set_key(index, down) (R219): a sample that differs from the keypad at `index` alone; an index
outside 0..15 changes nothing. -/
def State.setKey (s : State) (index : Nat) (down : Bool) : State :=
  if h : index < 16 then s.keySample (s.key.set index down h) else s

/-! ### Snapshot -/

/-- What a Snapshot returns (R221, R222, R223). -/
def State.snapshot (s : State) : Snapshot := ⟨s.fb, s.soundActive, s.mode⟩

/-! ### Reset -/

/-- Memory after the loads of Reset, in the order of R240: every byte 0x00, the font, the ROM. -/
def resetMemory (c : Config) (rom : List Byte) : Except Refusal Memory :=
  match loadBytes zeroedMemory c.fontBase.toNat c.fontData with
  | .error r => .error r
  | .ok m    => loadBytes m loadAddr rom

/-- Every piece of the spec's state at its reset value, with the memory the loads left (R41). The
configuration stays; so do the model's own `draws` (a draw after Reset is unrelated to one before it,
R146) and `schedule`, which is the host's (log entries 1, 2 and 3). -/
def State.resetAll (s : State) (m : Memory) : State :=
  { v        := Vector.replicate 16 0
    index    := 0x000
    pc       := BitVec.ofNat 12 loadAddr
    stack    := []
    dt       := 0
    st       := 0
    mem      := m
    fb       := clearFb
    key      := Vector.replicate 16 false
    mode     := .running
    latch    := none
    log      := []
    config   := s.config
    draws    := s.draws
    schedule := s.schedule }

/-- Reset(rom) (R240), from any state: Load error for a ROM of more than 3584 bytes (R244), else the
loads and the reset values. -/
def State.resetWith (s : State) (rom : List Byte) : Except Refusal State :=
  if memSize - loadAddr < rom.length then .error (.loadError loadAddr rom.length)
  else (resetMemory s.config rom).map s.resetAll

end Sys2Proof.Machine
end

