-- ==== Sys2Proof/Machine/Fetch.lean ====
section
/-! DEFINITION. Fetching an opcode word (30_encoding.md R85, 20_memory.md R51, R57), and placing one
where the next step fetches. -/

namespace Sys2Proof.Machine

/-- The opcode word at pc: two byte reads, at pc and at pc + 1, the latter not reduced modulo 4096, so
that pc = 0xFFF raises MemoryOutOfBounds(0x1000) (R57). -/
def State.fetchWord (s : State) : Except Fault OpWord :=
  match readByte s.mem s.pc.toNat with
  | .error f => .error f
  | .ok hi   => (readByte s.mem (s.pc.toNat + 1)).map (wordOfBytes hi)

/-- The state with word `w` at pc, ready to run it: Running, and a host that issues Steps.
A word does not fit at pc = 0xFFF (R57), so there it goes to LOAD_ADDR, and pc with it. -/
def State.placeWord (s : State) (w : OpWord) : State :=
  let at' : Addr := if s.pc = 0xFFF then BitVec.ofNat 12 loadAddr else s.pc
  { s with
    pc       := at'
    mode     := .running
    schedule := { s.schedule with pending := [], course := .cycle .step [] }
    mem      := s.mem.writeAll at'.toNat [(bytesOfWord w).1, (bytesOfWord w).2] }

end Sys2Proof.Machine
end

