-- ==== Sys2Proof/Machine/Step.lean ====
section
/-! DEFINITION. The step of the machine: the CPU event Step (30_encoding.md R85), the events of the
other agents, and which of them comes next (60_exceptions.md R220). -/

namespace Sys2Proof.Machine

/-- Step(rnd) (R85): nothing in Faulted; in Blocked, the completion of Fx0A once a key is latched;
in Running, one fetch, decode and execute. -/
def cpuStep (s : State) : Host.Outcome State Fault Refusal :=
  match s.mode with
  | .faulted _ => .next s
  | .blocked x =>
    match s.latch with
    | some k => .next (s.completeWait x k)
    | none   => .next s
  | .running =>
    match s.fetchWord with
    | .error f => .next (s.raise f)
    | .ok w    => exec (decode s.config w) s

/-- One atomic event (R9, R221). -/
def event (e : Event) (s : State) : Host.Outcome State Fault Refusal :=
  match e with
  | .step            => cpuStep s
  | .tick            => .next s.tick
  | .keySample k16   => .next (s.keySample k16)
  | .setKey index dn => .next (s.setKey index dn)
  | .snapshot        => .next s
  | .reset rom       =>
    match s.resetWith rom with
    | .ok t    => .next t
    | .error r => .refused r

/-- One step of the machine: the event the host delivers next (R220; log entry 3). -/
def step (s : State) : Host.Outcome State Fault Refusal :=
  event s.schedule.next.1 { s with schedule := s.schedule.next.2 }

/-- `s` with a table word stored where `step` fetches its next instruction. -/
def State.withFetchWord (s : State) (nbits w : Nat) : State := s.placeWord (tableWord nbits w)

end Sys2Proof.Machine
end

