-- ==== Sys2Proof/Safety.lean ====
section
/-! DEFINITION. What claims are stated in: the invariant of the machine's states, a safe state, and the
ends of a run (70_reset_and_hazards.md R257). -/

namespace Sys2Proof.Machine

/-- A configuration the spec admits: the glyphs lie in memory (R154) and are 80 bytes (R33). -/
abbrev ConfigOk (c : Config) : Prop :=
  c.fontBase.toNat + 79 ≤ 0xFFF ∧ c.fontData.length = 80

/-- What a fault record says agrees with the state it was raised in, which it left as it was (R200,
R205): the address recorded is always 0x1000, the stack is full or empty, the register value is above
15, and the pc is the faulting instruction's. -/
def FaultRecord.agrees (f : FaultRecord) (s : State) : Bool :=
  f.pc == s.pc &&
  match f.kind with
  | .memoryOutOfBounds a => a == 0x1000
  | .stackOverflow       => s.stack.length == stackDepth
  | .stackUnderflow      => s.stack.length == 0
  | .invalidKeyIndex v   => decide (0xF < v.toNat)
  | .invalidFontDigit v  => decide (0xF < v.toNat)

/-- The mode agrees with the rest of the state: the latch is set only while Blocked (R30), and a fault
record agrees with the state. -/
def State.modeAgrees (s : State) : Bool :=
  match s.mode with
  | .running   => s.latch == none
  | .blocked _ => true
  | .faulted f => s.latch == none && f.agrees s

/-- The invariant of the machine: canonical memory, at most 16 return addresses (R26), an admitted
configuration, and a mode that agrees with the rest. -/
abbrev State.Inv (s : State) : Prop :=
  s.mem.wf = true ∧ s.stack.length ≤ stackDepth ∧ ConfigOk s.config ∧ s.modeAgrees = true

/-- Not Faulted: what a claim of a safe run asks of its end (R257 (a)). -/
def State.notFaulted (s : State) : Bool :=
  match s.mode with
  | .running   => true
  | .blocked _ => true
  | .faulted _ => false

/-- Idle (R257 (b)): Running, and the word at pc is a jump to itself. -/
abbrev State.Idle (s : State) : Prop :=
  s.mode = .running ∧ s.fetchWord = .ok (encode (.jp s.pc))

end Sys2Proof.Machine
end

