-- ==== Sys2Proof/Certificates/Slice0/Obligations.lean ====
section
/-! DEFINITION. The statements for the provers, from the numbered rules of spec/, and the predicates
they are written in. "Rests on" in a docstring names what the spec marks as its own decision or
inference, or what is the model's choice. -/

namespace Sys2Proof.Statements

open Sys2Proof.Machine

/-! ### What a statement says of an instruction -/

/-- Under every configuration the word `w` is the instruction `i`, and `i` is encoded as `w`. -/
def Encodes (i : Instr) (w : OpWord) : Prop := encode i = w ∧ ∀ c, decode c w = i

/-- The pieces of state an instruction can change. -/
inductive Part where
  | v | index | pc | stack | dt | st | mem | fb | key | mode | latch | log | draws
  deriving DecidableEq, Repr

/-- The frame: every piece of state not named in `ps` reads in `t` as it did in `s`; the configuration
and the schedule always do. Memory and the framebuffer are compared by reading each byte and each
pixel. -/
def UnchangedExcept (ps : List Part) (s t : State) : Prop :=
  (Part.v ∉ ps → ∀ r, t.getV r = s.getV r) ∧
  (Part.index ∉ ps → t.index = s.index) ∧
  (Part.pc ∉ ps → t.pc = s.pc) ∧
  (Part.stack ∉ ps → t.stack = s.stack) ∧
  (Part.dt ∉ ps → t.dt = s.dt) ∧
  (Part.st ∉ ps → t.st = s.st) ∧
  (Part.mem ∉ ps → ∀ a, t.mem.read a = s.mem.read a) ∧
  (Part.fb ∉ ps → ∀ px py, t.fb.pixel px py = s.fb.pixel px py) ∧
  (Part.key ∉ ps → t.key = s.key) ∧
  (Part.mode ∉ ps → t.mode = s.mode) ∧
  (Part.latch ∉ ps → t.latch = s.latch) ∧
  (Part.log ∉ ps → t.log = s.log) ∧
  (Part.draws ∉ ps → t.draws = s.draws) ∧
  t.config = s.config ∧ t.schedule = s.schedule

/-- `t` is `s` with pc advanced past the instruction and register `x` holding `b`; nothing else
changed. -/
def SetsOnly (x : Reg) (b : Byte) (s t : State) : Prop :=
  t.getV x = b ∧ (∀ r, r ≠ x → t.getV r = s.getV r) ∧ t.pc = s.pc + 2 ∧
  UnchangedExcept [.v, .pc] s t

/-- `t` is `s` with pc advanced, register `x` holding `b` and then VF holding `flag`, so that with
x = 0xF the flag stays (10_state.md section 1); nothing else changed. -/
def SetsThenFlag (x : Reg) (b flag : Byte) (s t : State) : Prop :=
  t.getV 0xF = flag ∧ (x ≠ 0xF → t.getV x = b) ∧ (∀ r, r ≠ x → r ≠ 0xF → t.getV r = s.getV r) ∧
  t.pc = s.pc + 2 ∧ UnchangedExcept [.v, .pc] s t

/-- The instruction answers a skip exactly when `cond` holds: pc moves by 4 if it does, by 2 if not,
modulo 4096, and nothing else changes. -/
def SkipsWhen (i : Instr) (s : State) (cond : Prop) : Prop :=
  (cond → ∃ t, exec i s = .next t ∧ t.pc = s.pc + 4 ∧ UnchangedExcept [.pc] s t) ∧
  (¬ cond → ∃ t, exec i s = .next t ∧ t.pc = s.pc + 2 ∧ UnchangedExcept [.pc] s t)

/-- The state a fault leaves: the mode holds the fault and the instruction's address, and everything
else is as at the start of the step. -/
def faultedWith (f : Fault) (s : State) : State := { s with mode := .faulted ⟨f, s.pc⟩ }

/-- Whether the sprite of `n` rows at I, drawn at (V[x] mod 64, V[y] mod 32), is lit where it lands on
the pixel in column `px`, row `py`. -/
def spriteBitAt (s : State) (x y : Reg) (n : Nibble) (px : Fin 64) (py : Fin 32) : Bool :=
  let c := (px.val + 64 - (s.getV x).toNat % 64) % 64
  let r := (py.val + 32 - (s.getV y).toNat % 32) % 32
  decide (c < 8) && decide (r < n.toNat) && (s.mem.read (s.index.toNat + r)).getLsbD (7 - c)

/-- The registers an instruction's step may write (10_state.md, table of section 1). -/
def writesReg : Instr → Reg → Bool
  | .ldImm x _, r | .addImm x _, r | .ldReg x _, r | .orReg x _, r | .andReg x _, r
  | .xorReg x _, r | .rnd x _, r | .ldVxDt x, r => r == x
  | .addReg x _, r | .subReg x _, r | .subnReg x _, r | .shr x _, r | .shl x _, r => r == x || r == 0xF
  | .drw _ _ _, r => r == 0xF
  | .ldVxMem x, r => decide (r ≤ x)
  | _, _ => false

/-- The fault an instruction raises in a state, if any (60_exceptions.md, table of section 1). The table
gives StackOverflow for 16 entries; above 16, where no run comes, it is log entry 12. -/
def faultOf (s : State) : Instr → Option Fault
  | .ret => if s.stack = [] then some .stackUnderflow else none
  | .call _ => if 16 ≤ s.stack.length then some .stackOverflow else none
  | .skp x | .sknp x =>
    if 15 < (s.getV x).toNat then some (.invalidKeyIndex (s.getV x)) else none
  | .ldFVx x => if 15 < (s.getV x).toNat then some (.invalidFontDigit (s.getV x)) else none
  | .ldBVx _ => if 4096 ≤ s.index.toNat + 2 then some (.memoryOutOfBounds 0x1000) else none
  | .ldMemVx x | .ldVxMem x =>
    if 4096 ≤ s.index.toNat + x.val then some (.memoryOutOfBounds 0x1000) else none
  | .drw _ _ n => if 4096 < s.index.toNat + n.toNat then some (.memoryOutOfBounds 0x1000) else none
  | _ => none

/-- The glyphs of the digits 0 to 7, as 10_state.md R33 lists them. -/
def glyphs0to7 : List Byte :=
  [0xF0, 0x90, 0x90, 0x90, 0xF0] ++ [0x20, 0x60, 0x20, 0x20, 0x70] ++
  [0xF0, 0x10, 0xF0, 0x80, 0xF0] ++ [0xF0, 0x10, 0xF0, 0x10, 0xF0] ++
  [0x90, 0x90, 0xF0, 0x10, 0x10] ++ [0xF0, 0x80, 0xF0, 0x10, 0xF0] ++
  [0xF0, 0x80, 0xF0, 0x90, 0xF0] ++ [0xF0, 0x10, 0x20, 0x40, 0x40]

/-- The glyphs of the digits 8 to F, as 10_state.md R33 lists them. -/
def glyphs8toF : List Byte :=
  [0xF0, 0x90, 0xF0, 0x90, 0xF0] ++ [0xF0, 0x90, 0xF0, 0x10, 0xF0] ++
  [0xF0, 0x90, 0xF0, 0x90, 0x90] ++ [0xE0, 0x90, 0xE0, 0x90, 0xE0] ++
  [0xF0, 0x80, 0x80, 0x80, 0xF0] ++ [0xE0, 0x90, 0x90, 0x90, 0xE0] ++
  [0xF0, 0x80, 0xF0, 0x80, 0xF0] ++ [0xF0, 0x80, 0xF0, 0x80, 0x80]

end Sys2Proof.Statements

open Sys2Proof Sys2Proof.Machine Sys2Proof.Statements

/-! ### Encoding and decoding -/

/-- Decoding the word of a well-formed instruction gives the instruction back, with every operand at
every value and under every configuration. Rests on the spec's decisions D9, D14, D25 (which nibble
selects which operation, which words are UNKNOWN, the directions of Fx07, Fx15, Fx18). -/
def Obligations.DecodeOfEncodeIsInstruction : Prop :=
  ∀ (c : Config) (i : Instr), WellFormed c i → decode c (encode i) = i

/-- Where 00E0 and 00EE match the whole word and 5xy0, 9xy0 need low nibble 0 (the defaults, D14), no
two words decode to one instruction: encoding what a word decodes to gives the word. -/
def Obligations.EncodeOfDecodeIsWord : Prop :=
  ∀ (c : Config) (w : OpWord), c.zeroFamilyMatch = .exact → c.strictLowNibble = true →
    encode (decode c w) = w

/-- The decoder answers UNKNOWN exactly on the sets of 30_encoding.md section 4, written there word by
word, under every configuration; and what it answers is always a well-formed instruction. Rests on
D14. -/
def Obligations.UnknownExactlyOutsideOpcodeMap : Prop :=
  ∀ (c : Config) (w : OpWord),
    WellFormed c (decode c w) ∧ (decode c w = .unknown w ↔ unknownWord c w = true)

/-- Words of the spec's decode vectors (95_test_vectors.md 2.1, T1 to T12) and of the examples of its
instruction rules, and what they are: at least one word of each of the sixteen families. The map of
family 0x8 rests on D9, the UNKNOWN words on D14, Fx07 on D25. -/
def Obligations.SpecWordsDecodeAsListed : Prop :=
  decode defaultConfig 0x00E0 = .cls ∧ decode defaultConfig 0x00EE = .ret ∧
  decode defaultConfig 0x01E0 = .unknown 0x01E0 ∧
  decode { defaultConfig with zeroFamilyMatch := .lowByte } 0x01E0 = .cls ∧
  decode { defaultConfig with zeroFamilyMatch := .lowByte } 0x0FEE = .ret ∧
  decode defaultConfig 0x1204 = .jp 0x204 ∧ decode defaultConfig 0x2210 = .call 0x210 ∧
  decode defaultConfig 0x3142 = .seImm 1 0x42 ∧ decode defaultConfig 0x4103 = .sneImm 1 0x03 ∧
  decode defaultConfig 0x5120 = .seReg 1 2 ∧ decode defaultConfig 0x5121 = .unknown 0x5121 ∧
  decode { defaultConfig with strictLowNibble := false } 0x5121 = .seReg 1 2 ∧
  decode defaultConfig 0x6005 = .ldImm 0 0x05 ∧ decode defaultConfig 0x7003 = .addImm 0 0x03 ∧
  decode defaultConfig 0x8124 = .addReg 1 2 ∧ decode defaultConfig 0x8125 = .subReg 1 2 ∧
  decode defaultConfig 0x8ABE = .shl 0xA 0xB ∧ decode defaultConfig 0x8ABF = .unknown 0x8ABF ∧
  decode defaultConfig 0x9AB0 = .sneReg 0xA 0xB ∧ decode defaultConfig 0xA300 = .ldI 0x300 ∧
  decode defaultConfig 0xB123 = .jpV0 0x123 ∧ decode defaultConfig 0xC0FF = .rnd 0 0xFF ∧
  decode defaultConfig 0xD120 = .drw 1 2 0 ∧ decode defaultConfig 0xE1A1 = .sknp 1 ∧
  decode defaultConfig 0xF107 = .ldVxDt 1 ∧ decode defaultConfig 0xFF65 = .ldVxMem 0xF

/-! ### The step cycle -/

/-- When the host's next event is a Step, a step in Running runs the instruction that the two bytes at
pc decode to, the byte at pc being the high one, on the state as it stands (pc is the instruction's
own address) but for the schedule, from which the event is gone. With a host that issues Steps for
ever the state is the same one. Rests on D1, D16 and D19, and for the schedule on log entry 3. -/
def Obligations.StepRunsDecodedInstruction : Prop :=
  ∀ s : State, s.mode = .running → s.pc ≠ 0xFFF →
    (s.schedule.next.1 = .step →
      step s = exec (decode s.config
        (wordOfBytes (s.mem.read s.pc.toNat) (s.mem.read (s.pc.toNat + 1))))
          { s with schedule := s.schedule.next.2 }) ∧
    (s.schedule.pending = [] → s.schedule.course = .cycle .step [] →
      step s = exec (decode s.config
        (wordOfBytes (s.mem.read s.pc.toNat) (s.mem.read (s.pc.toNat + 1)))) s)

/-- The fetch at pc = 0xFFF raises MemoryOutOfBounds(0x1000). Rests on D3, D4 and D19, and for the next
state on log entry 4. -/
def Obligations.FetchAtLastAddressFaults : Prop :=
  ∀ s : State, s.mode = .running → s.pc = 0xFFF →
    cpuStep s = .next (faultedWith (.memoryOutOfBounds 0x1000) s)

/-- In Faulted a Step and a Tick change nothing. Rests on D19. -/
def Obligations.FaultedStepAndTickChangeNothing : Prop :=
  ∀ (s : State) (f : FaultRecord), s.mode = .faulted f → cpuStep s = .next s ∧ s.tick = s

/-- In Blocked a Step changes nothing until a key is latched; then it writes the key's number to the
waiting register, advances pc past the Fx0A, clears the latch, returns to Running and does nothing
else. Rests on D16. -/
def Obligations.BlockedStepWaitsThenCompletes : Prop :=
  ∀ (s : State) (x : Reg), s.mode = .blocked x →
    (s.latch = none → cpuStep s = .next s) ∧
    (∀ k, s.latch = some k → ∃ t, cpuStep s = .next t ∧
      t.getV x = BitVec.ofNat 8 k.val ∧ (∀ r, r ≠ x → t.getV r = s.getV r) ∧ t.pc = s.pc + 2 ∧
      t.latch = none ∧ t.mode = .running ∧ UnchangedExcept [.v, .pc, .latch, .mode] s t)

/-- One event a step, in the order the host chose: a pending event first; with none pending the first
event of a cycle, whose others are then pending; or, in a free course, the next of the free events.
Nothing in the machine makes Steps come: under a cycle of one Tick, or of one KeySample, any number of
steps are that event alone. A statement over a free course holds for every infinite interleaving. The
schedule is the model's choice (log entry 3) of how the interleavings of 60_exceptions.md section 8
are written down. -/
def Obligations.ScheduledEventIsNextStep : Prop :=
  ∀ s : State,
    (∀ e rest, s.schedule.pending = e :: rest →
      step s = event e { s with schedule := { s.schedule with pending := rest } }) ∧
    (s.schedule.pending = [] →
      (∀ e rest, s.schedule.course = .cycle e rest →
        step s = event e { s with schedule := { s.schedule with pending := rest } }) ∧
      (s.schedule.course = .free →
        step s = event (.ofClockEvent (Config.hostEvent s.schedule.delivered))
          { s with schedule := { s.schedule with delivered := s.schedule.delivered + 1 } }) ∧
      (∀ n, s.schedule.course = .cycle .tick [] → core.run n s = .next (State.tick^[n] s)) ∧
      (∀ n k16, s.schedule.course = .cycle (.keySample k16) [] →
        core.run n s = .next ((fun u => State.keySample u k16)^[n] s)))

/-! ### Rules of the whole machine -/

/-- Every step, whatever event it is, keeps the invariant: canonical memory, at most 16 return
addresses, an admitted configuration, a latch only while Blocked, and a fault record that agrees with
the state. -/
def Obligations.EveryStepKeepsTheInvariant : Prop :=
  ∀ s t : State, s.Inv → step s = .next t → t.Inv

/-- The state after reset meets the invariant. -/
def Obligations.ResetStateMeetsTheInvariant : Prop := State.reset.Inv

/-- Every instruction answers a next state in every state: none stops the machine, a fault being a
next state too (log entry 4). -/
def Obligations.EveryInstructionAnswersNextState : Prop :=
  ∀ (i : Instr) (s : State), ∃ t, exec i s = .next t

/-- From a state that meets the invariant every step answers a next state, unless the next event is a
Reset with a ROM of more than 3584 bytes. The refusal's form is log entry 6. -/
def Obligations.StepStopsOnlyOnOversizedRom : Prop :=
  ∀ s : State, s.Inv → (∀ rom, s.schedule.next.1 = .reset rom → rom.length ≤ 3584) →
    ∃ t, step s = .next t

/-- An instruction raises a fault exactly when the table of 60_exceptions.md section 1 says so, and
then the step leaves everything but the mode as it was; otherwise the mode is not Faulted. Rests on
D4, D17, D18, D19, on log entry 4 (a fault is a next state), and for a stack of more than 16 entries
on log entry 12. -/
def Obligations.InstructionFaultsExactlyAsListed : Prop :=
  ∀ (i : Instr) (s : State), s.mode = .running →
    (∀ f, faultOf s i = some f → exec i s = .next (faultedWith f s)) ∧
    (faultOf s i = none → ∃ t, exec i s = .next t ∧ ∀ f, t.mode ≠ .faulted f)

/-- A Step that ends in Faulted from Running, whether its fetch or its instruction raised the fault,
leaves every other piece of state as it was and records its own address. Rests on D19 and log entry
4. -/
def Obligations.FaultingStepDiscardsItsWrites : Prop :=
  ∀ (s t : State) (f : FaultRecord), s.mode = .running → cpuStep s = .next t →
    t.mode = .faulted f → f.pc = s.pc ∧ t = { s with mode := .faulted f }

/-- A general register changes only in an instruction that the table of 10_state.md section 1 lists
as its writer. The spec derives the table from its instruction rules. -/
def Obligations.RegistersChangeOnlyByTheirWriters : Prop :=
  ∀ (i : Instr) (s t : State) (r : Reg), exec i s = .next t → writesReg i r = false →
    t.getV r = s.getV r

/-- Memory changes only in Fx33 and Fx55, and there only at the bytes stored to. Every other
instruction leaves every byte as it was. The first premise, the canonical form of log entry 5, is kept
by every step (EveryStepKeepsTheInvariant). -/
def Obligations.MemoryChangesOnlyWhereStored : Prop :=
  ∀ (i : Instr) (s t : State), s.mem.wf = true → exec i s = .next t → ∀ a,
    (match i with
      | .ldBVx _   => a < s.effAddr 0 ∨ s.effAddr 3 ≤ a
      | .ldMemVx x => a < s.effAddr 0 ∨ s.effAddr (x.val + 1) ≤ a
      | _          => True) →
    t.mem.read a = s.mem.read a

/-- The stack changes only in CALL and RET, I only in Annn, Fx1E, Fx29 and, under ADVANCE, Fx55 and
Fx65, DT only in Fx15, ST only in Fx18; no instruction changes the keypad. Rests on D12 for I. -/
def Obligations.StackIndexAndTimersChangeOnlyByTheirWriters : Prop :=
  ∀ (i : Instr) (s t : State), exec i s = .next t →
    ((∀ nnn, i ≠ .call nnn) → i ≠ .ret → t.stack = s.stack) ∧
    ((∀ nnn, i ≠ .ldI nnn) → (∀ x, i ≠ .addIVx x) → (∀ x, i ≠ .ldFVx x) →
      (s.config.loadStoreIMode = .unchanged ∨ (∀ x, i ≠ .ldMemVx x) ∧ (∀ x, i ≠ .ldVxMem x)) →
      t.index = s.index) ∧
    ((∀ x, i ≠ .ldDtVx x) → t.dt = s.dt) ∧
    ((∀ x, i ≠ .ldStVx x) → t.st = s.st) ∧
    t.key = s.key

/-- The framebuffer changes only in a step that executes 00E0 or a Dxyn that does not fault, and in
Reset: no other instruction changes it; a Step changes it only where it executes one of the two and
does not end in a fault; and no event but Step and Reset changes it. The spec derives this rule. -/
def Obligations.FramebufferChangesOnlyByDisplayInstructions : Prop :=
  (∀ (i : Instr) (s t : State), exec i s = .next t → i ≠ .cls → (∀ x y n, i ≠ .drw x y n) →
    t.fb = s.fb) ∧
  (∀ (s t : State), cpuStep s = .next t →
    (∃ f, t.mode = .faulted f) ∨
      (∀ w, s.mode = .running → s.fetchWord = .ok w →
        decode s.config w ≠ .cls ∧ ∀ x y n, decode s.config w ≠ .drw x y n) →
    t.fb = s.fb) ∧
  (∀ (e : Event) (s t : State), e ≠ .step → (∀ rom, e ≠ .reset rom) → event e s = .next t →
    t.fb = s.fb)

/-- Tick, KeySample, set_key and Snapshot change at most DT, ST, the keypad and the latch. Rests on
D26 to D28, and for set_key above 15 and for Snapshot on log entries 13 and 14. -/
def Obligations.HostEventsChangeOnlyTimersAndKeys : Prop :=
  ∀ (e : Event) (s : State), e ≠ .step → (∀ rom, e ≠ .reset rom) →
    ∃ t, event e s = .next t ∧ UnchangedExcept [.dt, .st, .key, .latch] s t

/-- An instruction leaves the mode as it is, but for Fx0A, which blocks on its register, and for a
fault, whose record holds the instruction's address. Rests on D16, D19 and log entry 4. -/
def Obligations.ModeChangesOnlyByWaitOrFault : Prop :=
  ∀ (i : Instr) (s t : State), exec i s = .next t →
    t.mode = s.mode ∨ (∃ x, i = .ldVxK x ∧ t.mode = .blocked x) ∨
    (∃ f, t.mode = .faulted f ∧ f.pc = s.pc)

/-! ### Control flow -/

/-- 00EE RET. The underflow clause, a next state in Faulted mode and all else unchanged, rests on D19 and
log entry 4. -/
def Obligations.ReturnPopsOrUnderflows : Prop :=
  Encodes .ret 0x00EE ∧ ∀ s : State,
    (∀ below a, s.stack = below ++ [a] → ∃ t, exec .ret s = .next t ∧
      t.pc = a ∧ t.stack = below ∧ UnchangedExcept [.pc, .stack] s t) ∧
    (s.stack = [] → exec .ret s = .next (faultedWith .stackUnderflow s))

/-- 1nnn JP, and the jump to itself that every later Step in Running leaves unchanged. -/
def Obligations.JumpGoesToItsAddress : Prop :=
  (∀ nnn, Encodes (.jp nnn) (0x1#4 ++ nnn)) ∧
  (∀ (nnn : Addr) (s : State), ∃ t, exec (.jp nnn) s = .next t ∧ t.pc = nnn ∧
    UnchangedExcept [.pc] s t) ∧
  (∀ s : State, s.Idle → cpuStep s = .next s)

/-- 2nnn CALL: the address after the CALL is pushed. The overflow clause, a next state in Faulted mode
and all else unchanged, rests on D19 and log entry 4, and for more than 16 entries on log entry 12. -/
def Obligations.CallPushesNextOrOverflows : Prop :=
  (∀ nnn, Encodes (.call nnn) (0x2#4 ++ nnn)) ∧ ∀ (nnn : Addr) (s : State),
    (s.stack.length < 16 → ∃ t, exec (.call nnn) s = .next t ∧ t.pc = nnn ∧
      t.stack = s.stack ++ [s.pc + 2] ∧ UnchangedExcept [.pc, .stack] s t) ∧
    (16 ≤ s.stack.length → exec (.call nnn) s = .next (faultedWith .stackOverflow s))

/-- A CALL, and at any later time the RET that pops its entry: pc is the address after the CALL and
the stack is as before it. The spec derives this from the two instructions' rules. -/
def Obligations.CallThenReturnRoundTrip : Prop :=
  ∀ (nnn : Addr) (s : State), s.stack.length < 16 → ∃ t, exec (.call nnn) s = .next t ∧
    t.pc = nnn ∧ ∀ u : State, u.stack = t.stack → ∃ w, exec .ret u = .next w ∧
      w.pc = s.pc + 2 ∧ w.stack = s.stack

/-- 3xkk and 4xkk: skip if Vx equals, or does not equal, kk. -/
def Obligations.ImmediateSkips : Prop :=
  (∀ x kk, Encodes (.seImm x kk) (0x3#4 ++ x.bits ++ kk)) ∧
  (∀ x kk, Encodes (.sneImm x kk) (0x4#4 ++ x.bits ++ kk)) ∧
  ∀ (x : Reg) (kk : Byte) (s : State),
    SkipsWhen (.seImm x kk) s (s.getV x = kk) ∧ SkipsWhen (.sneImm x kk) s (s.getV x ≠ kk)

/-- 5xy0 and 9xy0: skip if Vx equals, or does not equal, Vy. The low nibble of the encodings rests on
D14. -/
def Obligations.RegisterSkips : Prop :=
  (∀ x y, Encodes (.seReg x y) (0x5#4 ++ x.bits ++ y.bits ++ 0x0#4)) ∧
  (∀ x y, Encodes (.sneReg x y) (0x9#4 ++ x.bits ++ y.bits ++ 0x0#4)) ∧
  ∀ (x y : Reg) (s : State),
    SkipsWhen (.seReg x y) s (s.getV x = s.getV y) ∧
    SkipsWhen (.sneReg x y) s (s.getV x ≠ s.getV y)

/-- Bnnn: pc becomes (nnn + V0) mod 4096. The wrap rests on D3. -/
def Obligations.JumpV0AddsRegisterZero : Prop :=
  (∀ nnn, Encodes (.jpV0 nnn) (0xB#4 ++ nnn)) ∧
  ∀ (nnn : Addr) (s : State), ∃ t, exec (.jpV0 nnn) s = .next t ∧
    t.pc.toNat = (nnn.toNat + (s.getV 0).toNat) % 4096 ∧ UnchangedExcept [.pc] s t

/-! ### Register loads and the ALU -/

/-- 6xkk and 7xkk: load and add an immediate, modulo 256, with no flag. -/
def Obligations.ImmediateLoadAndAdd : Prop :=
  (∀ x kk, Encodes (.ldImm x kk) (0x6#4 ++ x.bits ++ kk)) ∧
  (∀ x kk, Encodes (.addImm x kk) (0x7#4 ++ x.bits ++ kk)) ∧
  ∀ (x : Reg) (kk : Byte) (s : State),
    (∃ t, exec (.ldImm x kk) s = .next t ∧ SetsOnly x kk s t) ∧
    (∃ t, exec (.addImm x kk) s = .next t ∧
      SetsOnly x (BitVec.ofNat 8 (((s.getV x).toNat + kk.toNat) % 256)) s t)

/-- 8xy0 to 8xy3: copy, OR, AND, XOR, with no flag: each bit of Vx afterwards. Rests on D9 (which low
nibble is which operation) and D10 (VF unchanged). -/
def Obligations.RegisterCopyAndLogic : Prop :=
  (∀ x y, Encodes (.ldReg x y) (0x8#4 ++ x.bits ++ y.bits ++ 0x0#4)) ∧
  (∀ x y, Encodes (.orReg x y) (0x8#4 ++ x.bits ++ y.bits ++ 0x1#4)) ∧
  (∀ x y, Encodes (.andReg x y) (0x8#4 ++ x.bits ++ y.bits ++ 0x2#4)) ∧
  (∀ x y, Encodes (.xorReg x y) (0x8#4 ++ x.bits ++ y.bits ++ 0x3#4)) ∧
  ∀ (x y : Reg) (s : State),
    (∃ t, exec (.ldReg x y) s = .next t ∧ SetsOnly x (s.getV y) s t) ∧
    (∃ t b, exec (.orReg x y) s = .next t ∧ SetsOnly x b s t ∧
      ∀ k, k < 8 → b.getLsbD k = ((s.getV x).getLsbD k || (s.getV y).getLsbD k)) ∧
    (∃ t b, exec (.andReg x y) s = .next t ∧ SetsOnly x b s t ∧
      ∀ k, k < 8 → b.getLsbD k = ((s.getV x).getLsbD k && (s.getV y).getLsbD k)) ∧
    (∃ t b, exec (.xorReg x y) s = .next t ∧ SetsOnly x b s t ∧
      ∀ k, k < 8 → b.getLsbD k = ((s.getV x).getLsbD k ^^ (s.getV y).getLsbD k))

/-- 8xy4: the sum modulo 256, then VF = 1 exactly if the sum is above 255; with x = 0xF the flag
stays. The encoding rests on D9. -/
def Obligations.AddSetsCarry : Prop :=
  (∀ x y, Encodes (.addReg x y) (0x8#4 ++ x.bits ++ y.bits ++ 0x4#4)) ∧
  ∀ (x y : Reg) (s : State), ∃ t, exec (.addReg x y) s = .next t ∧
    SetsThenFlag x (BitVec.ofNat 8 (((s.getV x).toNat + (s.getV y).toNat) % 256))
      (if 255 < (s.getV x).toNat + (s.getV y).toNat then 1 else 0) s t

/-- 8xy5 and 8xy7: the difference modulo 256, Vx - Vy or Vy - Vx, then VF = 1 exactly if there is no
borrow. The encodings, and the no-borrow condition of 8xy7, rest on D9. -/
def Obligations.SubtractionsSetNoBorrow : Prop :=
  (∀ x y, Encodes (.subReg x y) (0x8#4 ++ x.bits ++ y.bits ++ 0x5#4)) ∧
  (∀ x y, Encodes (.subnReg x y) (0x8#4 ++ x.bits ++ y.bits ++ 0x7#4)) ∧
  ∀ (x y : Reg) (s : State),
    (∃ t, exec (.subReg x y) s = .next t ∧
      SetsThenFlag x (BitVec.ofNat 8 (((s.getV x).toNat + 256 - (s.getV y).toNat) % 256))
        (if (s.getV y).toNat ≤ (s.getV x).toNat then 1 else 0) s t) ∧
    (∃ t, exec (.subnReg x y) s = .next t ∧
      SetsThenFlag x (BitVec.ofNat 8 (((s.getV y).toNat + 256 - (s.getV x).toNat) % 256))
        (if (s.getV x).toNat ≤ (s.getV y).toNat then 1 else 0) s t)

/-- 8xy6 and 8xyE: shift the operand that SHIFT_SOURCE names by one, then VF = the bit shifted out.
Rests on D9 and D11. -/
def Obligations.ShiftsSetTheBitShiftedOut : Prop :=
  (∀ x y, Encodes (.shr x y) (0x8#4 ++ x.bits ++ y.bits ++ 0x6#4)) ∧
  (∀ x y, Encodes (.shl x y) (0x8#4 ++ x.bits ++ y.bits ++ 0xE#4)) ∧
  ∀ (x y : Reg) (s : State) (src : Byte),
    (s.config.shiftSource = .vx → src = s.getV x) →
    (s.config.shiftSource = .vy → src = s.getV y) →
    (∃ t, exec (.shr x y) s = .next t ∧
      SetsThenFlag x (BitVec.ofNat 8 (src.toNat / 2)) (BitVec.ofNat 8 (src.toNat % 2)) s t) ∧
    (∃ t, exec (.shl x y) s = .next t ∧
      SetsThenFlag x (BitVec.ofNat 8 (2 * src.toNat % 256)) (BitVec.ofNat 8 (src.toNat / 128)) s t)

/-- Cxkk: Vx becomes the step's random byte masked with kk, so that a bit clear in kk is clear in the
result. The random byte is a free value, and the counter that indexes it is the model's (log entry
2); it moves on, so that the next draw is another free value. -/
def Obligations.RandomByteIsMasked : Prop :=
  (∀ x kk, Encodes (.rnd x kk) (0xC#4 ++ x.bits ++ kk)) ∧
  ∀ (x : Reg) (kk : Byte) (s : State), ∃ t, exec (.rnd x kk) s = .next t ∧
    t.getV x = Config.freeByte s.draws &&& kk ∧
    (∀ k, kk.getLsbD k = false → (t.getV x).getLsbD k = false) ∧
    (∀ r, r ≠ x → t.getV r = s.getV r) ∧ t.pc = s.pc + 2 ∧ t.draws = s.draws + 1 ∧
    UnchangedExcept [.v, .pc, .draws] s t

/-! ### Index register and memory -/

/-- Annn: I becomes nnn. -/
def Obligations.LoadIndexSetsI : Prop :=
  (∀ nnn, Encodes (.ldI nnn) (0xA#4 ++ nnn)) ∧
  ∀ (nnn : Addr) (s : State), ∃ t, exec (.ldI nnn) s = .next t ∧ t.index = nnn ∧
    t.pc = s.pc + 2 ∧ UnchangedExcept [.index, .pc] s t

/-- Fx1E: I becomes (I + Vx) mod 4096, and no register changes, VF included. Rests on D13. -/
def Obligations.AddIndexWrapsWithoutFlag : Prop :=
  (∀ x, Encodes (.addIVx x) (0xF#4 ++ x.bits ++ 0x1E#8)) ∧
  ∀ (x : Reg) (s : State), ∃ t, exec (.addIVx x) s = .next t ∧
    t.index.toNat = (s.index.toNat + (s.getV x).toNat) % 4096 ∧ t.pc = s.pc + 2 ∧
    UnchangedExcept [.index, .pc] s t

/-- Fx29: I becomes FONT_BASE + 5 * Vx for a digit up to 15, and InvalidFontDigit above. Rests on D7
and D18, and the fault's next state, all but the mode unchanged, on D19 and log entry 4. The premise is
kept by every step (EveryStepKeepsTheInvariant). -/
def Obligations.FontDigitPointsIAtItsGlyph : Prop :=
  (∀ x, Encodes (.ldFVx x) (0xF#4 ++ x.bits ++ 0x29#8)) ∧
  ∀ (x : Reg) (s : State), ConfigOk s.config →
    ((s.getV x).toNat ≤ 15 → ∃ t, exec (.ldFVx x) s = .next t ∧
      t.index.toNat = s.config.fontBase.toNat + 5 * (s.getV x).toNat ∧ t.pc = s.pc + 2 ∧
      UnchangedExcept [.index, .pc] s t) ∧
    (15 < (s.getV x).toNat →
      exec (.ldFVx x) s = .next (faultedWith (.invalidFontDigit (s.getV x)) s))

/-- Fx33: the hundreds, tens and ones of Vx at I, I + 1 and I + 2 and nowhere else, or
MemoryOutOfBounds when I + 2 is past the last address. Rests on D4, D19 and D24, and on log entries 4 (the fault
is a next state) and 5 (the premise: canonical memory, kept by every step). -/
def Obligations.DecimalDigitsAreStoredAtI : Prop :=
  (∀ x, Encodes (.ldBVx x) (0xF#4 ++ x.bits ++ 0x33#8)) ∧
  ∀ (x : Reg) (s : State), s.mem.wf = true →
    (s.index.toNat + 2 < 4096 → ∃ t, exec (.ldBVx x) s = .next t ∧
      (t.mem.read (s.effAddr 0)).toNat = (s.getV x).toNat / 100 ∧
      (t.mem.read (s.effAddr 1)).toNat = (s.getV x).toNat / 10 % 10 ∧
      (t.mem.read (s.effAddr 2)).toNat = (s.getV x).toNat % 10 ∧
      (∀ a, a < s.effAddr 0 ∨ s.effAddr 3 ≤ a → t.mem.read a = s.mem.read a) ∧
      t.pc = s.pc + 2 ∧ UnchangedExcept [.mem, .pc] s t) ∧
    (4096 ≤ s.index.toNat + 2 →
      exec (.ldBVx x) s = .next (faultedWith (.memoryOutOfBounds 0x1000) s))

/-- Fx55: V0 to Vx at I to I + x and nowhere else, I left or advanced as LOADSTORE_I_MODE says; or
MemoryOutOfBounds, with nothing written, when I + x is past the last address. Rests on D4, D12 and
D19, and on log entries 4 (the fault is a next state) and 5 (the premise: canonical memory, kept by
every step). -/
def Obligations.RegistersAreStoredAtI : Prop :=
  (∀ x, Encodes (.ldMemVx x) (0xF#4 ++ x.bits ++ 0x55#8)) ∧
  ∀ (x : Reg) (s : State), s.mem.wf = true →
    (s.index.toNat + x.val < 4096 → ∃ t, exec (.ldMemVx x) s = .next t ∧
      (∀ r, r ≤ x → t.mem.read (s.effAddr r.val) = s.getV r) ∧
      (∀ a, a < s.effAddr 0 ∨ s.effAddr (x.val + 1) ≤ a → t.mem.read a = s.mem.read a) ∧
      (s.config.loadStoreIMode = .unchanged → t.index = s.index) ∧
      (s.config.loadStoreIMode = .advance →
        t.index.toNat = (s.index.toNat + x.val + 1) % 4096) ∧
      t.pc = s.pc + 2 ∧ UnchangedExcept [.mem, .index, .pc] s t) ∧
    (4096 ≤ s.index.toNat + x.val →
      exec (.ldMemVx x) s = .next (faultedWith (.memoryOutOfBounds 0x1000) s))

/-- Fx65: V0 to Vx from I to I + x, the other registers kept, I left or advanced as LOADSTORE_I_MODE
says; or MemoryOutOfBounds, with no register changed, when I + x is past the last address. Rests on
D4, D12 and D19, and for the fault's next state on log entry 4. -/
def Obligations.RegistersAreLoadedFromI : Prop :=
  (∀ x, Encodes (.ldVxMem x) (0xF#4 ++ x.bits ++ 0x65#8)) ∧
  ∀ (x : Reg) (s : State),
    (s.index.toNat + x.val < 4096 → ∃ t, exec (.ldVxMem x) s = .next t ∧
      (∀ r, r ≤ x → t.getV r = s.mem.read (s.effAddr r.val)) ∧
      (∀ r, x < r → t.getV r = s.getV r) ∧
      (s.config.loadStoreIMode = .unchanged → t.index = s.index) ∧
      (s.config.loadStoreIMode = .advance →
        t.index.toNat = (s.index.toNat + x.val + 1) % 4096) ∧
      t.pc = s.pc + 2 ∧ UnchangedExcept [.v, .index, .pc] s t) ∧
    (4096 ≤ s.index.toNat + x.val →
      exec (.ldVxMem x) s = .next (faultedWith (.memoryOutOfBounds 0x1000) s))

/-- MemRead and MemWrite: inside memory a read gives the byte and a write changes that byte and no
other; at 4096 or above both raise MemoryOutOfBounds of the address. The premise and the clause that
the write keeps it are the model's canonical form of memory (log entry 5), which every step keeps. -/
def Obligations.MemoryPrimitivesReadAndWriteOneByte : Prop :=
  ∀ (m : Memory) (a : Nat) (b : Byte), m.wf = true →
    (a < 4096 → readByte m a = .ok (m.read a) ∧ ∃ m', writeByte m a b = .ok m' ∧ m'.wf = true ∧
      ∀ c, m'.read c = if c = a then b else m.read c) ∧
    (4096 ≤ a → readByte m a = .error (.memoryOutOfBounds a) ∧
      writeByte m a b = .error (.memoryOutOfBounds a))

/-! ### Display -/

/-- 00E0: every pixel off; VF and everything else unchanged. -/
def Obligations.ClearTurnsEveryPixelOff : Prop :=
  Encodes .cls 0x00E0 ∧ ∀ s : State, ∃ t, exec .cls s = .next t ∧
    (∀ px py, t.fb.pixel px py = false) ∧ t.pc = s.pc + 2 ∧ UnchangedExcept [.fb, .pc] s t

/-- Dxyn: every pixel is XORed with the sprite's pixel that lands on it, with wrap on both axes, and
VF = 1 exactly if some lit pixel of the sprite landed on a pixel that was on. The loops of
43_display.md section 2 in closed form. Rests on D23 (bit order, n = 0). -/
def Obligations.DrawXorsSpriteAndReportsCollision : Prop :=
  (∀ x y n, Encodes (.drw x y n) (0xD#4 ++ x.bits ++ y.bits ++ n)) ∧
  ∀ (x y : Reg) (n : Nibble) (s : State), s.index.toNat + n.toNat ≤ 4096 →
    ∃ t, exec (.drw x y n) s = .next t ∧
      (∀ px py, t.fb.pixel px py = (s.fb.pixel px py ^^ spriteBitAt s x y n px py)) ∧
      ((∃ px py, s.fb.pixel px py = true ∧ spriteBitAt s x y n px py = true) → t.getV 0xF = 1) ∧
      (¬ (∃ px py, s.fb.pixel px py = true ∧ spriteBitAt s x y n px py = true) → t.getV 0xF = 0) ∧
      (∀ r, r ≠ 0xF → t.getV r = s.getV r) ∧ t.pc = s.pc + 2 ∧ UnchangedExcept [.fb, .v, .pc] s t

/-- Dxyn with a row past the last address raises MemoryOutOfBounds and draws nothing. Rests on D4,
D19 and D23, and for the fault's next state on log entry 4. -/
def Obligations.DrawPastMemoryFaults : Prop :=
  ∀ (x y : Reg) (n : Nibble) (s : State), 4096 < s.index.toNat + n.toNat →
    exec (.drw x y n) s = .next (faultedWith (.memoryOutOfBounds 0x1000) s)

/-- Two consecutive identical draws leave the framebuffer as it was, and the second sets VF = 1
exactly if the first turned a pixel on. The spec derives this law from the draw's rule. -/
def Obligations.DrawTwiceRestoresTheFramebuffer : Prop :=
  ∀ (x y : Reg) (n : Nibble) (s : State), x ≠ 0xF → y ≠ 0xF → s.index.toNat + n.toNat ≤ 4096 →
    ∃ t u, exec (.drw x y n) s = .next t ∧ exec (.drw x y n) t = .next u ∧
      (∀ px py, u.fb.pixel px py = s.fb.pixel px py) ∧
      (u.getV 0xF = 1 ↔ ∃ px py, s.fb.pixel px py = false ∧ t.fb.pixel px py = true) ∧
      (u.getV 0xF = 1 ∨ u.getV 0xF = 0)

/-- A draw with V[x] = v is the draw with V[x] = v mod 64, x = y included, and a draw with V[y] = w the
draw with V[y] = w mod 32, where y is not x (for x = y that would change the column too): the same
framebuffer and the same VF. The spec derives this law from the draw's rule. -/
def Obligations.DrawCoordinatesWrap : Prop :=
  ∀ (x y : Reg) (n : Nibble) (s : State), s.index.toNat + n.toNat ≤ 4096 →
    ∃ t u, exec (.drw x y n) s = .next t ∧
      exec (.drw x y n) (s.setV x (s.getV x % 64)) = .next u ∧
      (∀ px py, u.fb.pixel px py = t.fb.pixel px py) ∧ u.getV 0xF = t.getV 0xF ∧
      (x ≠ y → ∃ w, exec (.drw x y n) (s.setV y (s.getV y % 32)) = .next w ∧
        (∀ px py, w.fb.pixel px py = t.fb.pixel px py) ∧ w.getV 0xF = t.getV 0xF)

/-! ### Keypad and timers -/

/-- Ex9E and ExA1: skip if key Vx is down, or up; above 15 InvalidKeyIndex. The fault rests
on D17, its next state, all but the mode unchanged, on D19 and log entry 4. -/
def Obligations.KeySkips : Prop :=
  (∀ x, Encodes (.skp x) (0xE#4 ++ x.bits ++ 0x9E#8)) ∧
  (∀ x, Encodes (.sknp x) (0xE#4 ++ x.bits ++ 0xA1#8)) ∧
  ∀ (x : Reg) (s : State),
    (∀ k : Key, (s.getV x).toNat = k.val →
      SkipsWhen (.skp x) s (s.key.get k = true) ∧ SkipsWhen (.sknp x) s (s.key.get k = false)) ∧
    (15 < (s.getV x).toNat →
      exec (.skp x) s = .next (faultedWith (.invalidKeyIndex (s.getV x)) s) ∧
      exec (.sknp x) s = .next (faultedWith (.invalidKeyIndex (s.getV x)) s))

/-- Fx0A, the executing step: pc stays, the latch is cleared and the core waits for Vx. Rests on
D16. -/
def Obligations.WaitForKeyBlocks : Prop :=
  (∀ x, Encodes (.ldVxK x) (0xF#4 ++ x.bits ++ 0x0A#8)) ∧
  ∀ (x : Reg) (s : State), ∃ t, exec (.ldVxK x) s = .next t ∧ t.mode = .blocked x ∧
    t.latch = none ∧ UnchangedExcept [.mode, .latch] s t

/-- A KeySample: the keypad becomes the sample; while Blocked with an empty latch the lowest key that
went down is latched, if any did; otherwise the latch stays. Rests on D16 and D28. -/
def Obligations.KeySampleLatchesLowestPress : Prop :=
  ∀ (s : State) (k16 : Keypad),
    (s.keySample k16).key = k16 ∧ UnchangedExcept [.key, .latch] s (s.keySample k16) ∧
    (∀ x, s.mode = .blocked x → s.latch = none →
      (∀ k, s.key.get k = false → k16.get k = true →
        (∀ j, j < k → ¬ (s.key.get j = false ∧ k16.get j = true)) →
        (s.keySample k16).latch = some k) ∧
      ((∀ k, ¬ (s.key.get k = false ∧ k16.get k = true)) → (s.keySample k16).latch = none)) ∧
    ((∀ x, s.mode ≠ .blocked x) ∨ s.latch ≠ none → (s.keySample k16).latch = s.latch)

/-- set_key(index, down) is the KeySample that differs from the keypad at `index` alone; an index
above 15 changes nothing. Rests on D28, and above 15 on log entry 13. -/
def Obligations.SetKeyIsOneKeySample : Prop :=
  ∀ (s : State) (index : Nat) (down : Bool),
    (index < 16 → ∃ k16 : Keypad, (∀ k : Key, k.val = index → k16.get k = down) ∧
      (∀ k : Key, k.val ≠ index → k16.get k = s.key.get k) ∧
      s.setKey index down = s.keySample k16) ∧
    (16 ≤ index → s.setKey index down = s)

/-- Fx07, Fx15 and Fx18: Vx from DT, DT from Vx, ST from Vx. The directions rest on D25. -/
def Obligations.TimerMoves : Prop :=
  (∀ x, Encodes (.ldVxDt x) (0xF#4 ++ x.bits ++ 0x07#8)) ∧
  (∀ x, Encodes (.ldDtVx x) (0xF#4 ++ x.bits ++ 0x15#8)) ∧
  (∀ x, Encodes (.ldStVx x) (0xF#4 ++ x.bits ++ 0x18#8)) ∧
  ∀ (x : Reg) (s : State),
    (∃ t, exec (.ldVxDt x) s = .next t ∧ SetsOnly x s.dt s t) ∧
    (∃ t, exec (.ldDtVx x) s = .next t ∧ t.dt = s.getV x ∧ t.pc = s.pc + 2 ∧
      UnchangedExcept [.dt, .pc] s t) ∧
    (∃ t, exec (.ldStVx x) s = .next t ∧ t.st = s.getV x ∧ t.pc = s.pc + 2 ∧
      UnchangedExcept [.st, .pc] s t)

/-- `n` Ticks outside Faulted lower each timer by `n`, stopping at zero, and change nothing else; a
Blocked core's timers count too. -/
def Obligations.TicksCountTimersDownToZero : Prop :=
  ∀ (n : Nat) (s : State), (∀ f, s.mode ≠ .faulted f) →
    ((State.tick^[n] s).dt).toNat = s.dt.toNat - n ∧
    ((State.tick^[n] s).st).toNat = s.st.toNat - n ∧
    UnchangedExcept [.dt, .st] s (State.tick^[n] s)

/-- While Blocked only the CPU's own progress stops: a Tick lowers both timers that are above zero, a
KeySample updates the keypad, and a Snapshot returns the display, the sound signal and the waiting
state. The Snapshot clauses rest on D27 and log entry 14, the waiting Step on D16. -/
def Obligations.BlockedCoreStillTakesEvents : Prop :=
  ∀ (s : State) (x : Reg), s.mode = .blocked x →
    ((∃ t, event .tick s = .next t ∧ t.dt.toNat = s.dt.toNat - 1 ∧ t.st.toNat = s.st.toNat - 1 ∧
        UnchangedExcept [.dt, .st] s t) ∧
      (∀ k16, ∃ t, event (.keySample k16) s = .next t ∧ t.key = k16 ∧
        UnchangedExcept [.key, .latch] s t) ∧
      event .snapshot s = .next s ∧ s.snapshot.fb = s.fb ∧ s.snapshot.mode = .blocked x ∧
      (s.snapshot.soundActive = true ↔ 0 < s.st.toNat)) ∧
    (s.latch = none → cpuStep s = .next s)

/-- The sound signal a Snapshot returns is on exactly while ST is above zero. -/
def Obligations.SoundIsActiveWhileStIsAboveZero : Prop :=
  ∀ s : State, (s.snapshot.soundActive = true ↔ 0 < s.st.toNat)

/-! ### Unknown opcodes -/

/-- Any other word: pc moves past it, one diagnostic record is appended, and nothing else changes. What
the words are rests on D14, the record on D15. -/
def Obligations.UnknownIsNoOpWithDiagnostic : Prop :=
  ∀ (w : OpWord) (s : State), unknownWord s.config w = true →
    decode s.config w = .unknown w ∧ ∃ t, exec (.unknown w) s = .next t ∧ t.pc = s.pc + 2 ∧
      t.log = s.log ++ [⟨s.pc, w⟩] ∧ UnchangedExcept [.pc, .log] s t

/-! ### Reset -/

/-- Reset with a ROM of at most 3584 bytes, from any state: the values of 10_state.md section 12, the
font at FONT_BASE, the ROM at 0x200 and 0x00 elsewhere. Every value is the spec's own decision (D5 to
D8, D15, D31). The configuration stays (log entry 1), and so do the model's own fields, the count of
draws and the schedule (log entries 2 and 3). -/
def Obligations.ResetLoadsFontAndRom : Prop :=
  ∀ (s : State) (rom : List Byte), ConfigOk s.config → rom.length ≤ 3584 →
    ∃ t, event (.reset rom) s = .next t ∧
      (∀ r, t.getV r = 0) ∧ t.index = 0 ∧ t.pc = 0x200 ∧ t.stack = [] ∧ t.dt = 0 ∧ t.st = 0 ∧
      (∀ px py, t.fb.pixel px py = false) ∧ (∀ k, t.key.get k = false) ∧
      t.mode = .running ∧ t.latch = none ∧ t.log = [] ∧ t.config = s.config ∧
      t.draws = s.draws ∧ t.schedule = s.schedule ∧
      (∀ a, t.mem.read a =
        if 0x200 ≤ a ∧ a < 0x200 + rom.length then rom.getD (a - 0x200) 0
        else if s.config.fontBase.toNat ≤ a ∧ a < s.config.fontBase.toNat + 80 then
          s.config.fontData.getD (a - s.config.fontBase.toNat) 0
        else 0)

/-- Reset with a larger ROM gives Load error and no state. Rests on D31, and for the form of the
answer on log entry 6. -/
def Obligations.OversizedRomIsRefused : Prop :=
  ∀ (s : State) (rom : List Byte), 3584 < rom.length →
    event (.reset rom) s = .refused (.loadError 0x200 rom.length)

/-- The state after reset: the values of 10_state.md section 12 with an empty ROM, each the spec's own
decision (D5 to D8, D15), the font's 80 bytes written out from R33. -/
def Obligations.ResetStateHoldsTheResetValues : Prop :=
  (∀ r, State.reset.getV r = 0) ∧ State.reset.index = 0 ∧ State.reset.pc = 0x200 ∧
  State.reset.stack = [] ∧ State.reset.dt = 0 ∧ State.reset.st = 0 ∧
  (∀ px py, State.reset.fb.pixel px py = false) ∧ (∀ k, State.reset.key.get k = false) ∧
  State.reset.mode = .running ∧ State.reset.latch = none ∧ State.reset.log = [] ∧
  (∀ a, State.reset.mem.read a = (glyphs0to7 ++ glyphs8toF).getD a 0) ∧
  State.reset.config.fontBase = 0x000 ∧ State.reset.config.fontData = glyphs0to7 ++ glyphs8toF

/-! ### Code as data -/

/-- Code that Fx55 stores right after itself is what the next fetch reads, with nothing in between.
Rests on D29; the spec derives the rule from program order. The first premise is the canonical form of
log entry 5, kept by every step. -/
def Obligations.StoredCodeIsFetchedNext : Prop :=
  ∀ (x : Reg) (s : State), s.mem.wf = true → s.index = s.pc + 2 → 1 ≤ x.val →
    s.index.toNat + x.val < 4096 →
    ∃ t, exec (.ldMemVx x) s = .next t ∧ t.fetchWord = .ok (wordOfBytes (s.getV 0) (s.getV 1))

/-- The five fault kinds, their code numbers and the info each records. The numbers are the spec's own
(D20). -/
def Obligations.FaultCodesAndInfoAsListed : Prop :=
  (∀ a, (Fault.memoryOutOfBounds a).code = 1 ∧ (Fault.memoryOutOfBounds a).info = some a) ∧
  (Fault.stackOverflow.code = 2 ∧ Fault.stackOverflow.info = none) ∧
  (Fault.stackUnderflow.code = 3 ∧ Fault.stackUnderflow.info = none) ∧
  (∀ v, (Fault.invalidKeyIndex v).code = 4 ∧ (Fault.invalidKeyIndex v).info = some v.toNat) ∧
  (∀ v, (Fault.invalidFontDigit v).code = 5 ∧ (Fault.invalidFontDigit v).info = some v.toNat)
end

