-- ==== Sys2Proof/Laws/Decode.lean ====
section
/-! SUPPORT. The fields of a word put together from fields, format by format (30_encoding.md R72). -/

namespace Sys2Proof

@[simp] theorem Reg.ofBits_bits (r : Reg) : Reg.ofBits r.bits = r := by
  ext
  simp only [Reg.ofBits, Reg.bits, BitVec.toNat_ofNat]
  exact Nat.mod_eq_of_lt r.isLt

@[simp] theorem Reg.bits_ofBits (b : Nibble) : (Reg.ofBits b).bits = b := by
  simp [Reg.ofBits, Reg.bits]

/-- A word cut into a high and a low byte, and put together again. -/
@[simp] theorem wordOfBytes_bytesOfWord (w : OpWord) :
    wordOfBytes (bytesOfWord w).1 (bytesOfWord w).2 = w := by
  apply BitVec.eq_of_getLsbD_eq
  intro i hi
  simp only [wordOfBytes, bytesOfWord, BitVec.getLsbD_append, BitVec.getLsbD_extractLsb']
  by_cases h : i < 8
  · simp [h]
  · have h1 : i - 8 < 8 := by omega
    have h2 : 8 + (i - 8) = i := by omega
    simp [h, h1, h2]

/-- Extracting from the lower part of an append. -/
theorem extract_append_low {n m : Nat} (a : BitVec n) (b : BitVec m) (start len : Nat)
    (h : start + len ≤ m) : (a ++ b).extractLsb' start len = b.extractLsb' start len := by
  apply BitVec.eq_of_getLsbD_eq
  intro i hi
  simp only [BitVec.getLsbD_extractLsb', BitVec.getLsbD_append]
  simp [show start + i < m by omega]

/-- Extracting from the upper part of an append. -/
theorem extract_append_high {n m : Nat} (a : BitVec n) (b : BitVec m) (start len : Nat)
    (h : m ≤ start) : (a ++ b).extractLsb' start len = a.extractLsb' (start - m) len := by
  apply BitVec.eq_of_getLsbD_eq
  intro i hi
  simp only [BitVec.getLsbD_extractLsb', BitVec.getLsbD_append]
  simp [show ¬ start + i < m by omega, show start + i - m = start - m + i by omega]

theorem extract_all {n : Nat} (a : BitVec n) : a.extractLsb' 0 n = a := by
  apply BitVec.eq_of_getLsbD_eq
  intro i hi
  simp [hi]

/-! ### Format NNN -/

@[simp] theorem fieldT_nnn (t : Nibble) (nnn : Addr) : fieldT (t ++ nnn) = t := by
  rw [fieldT, extract_append_high _ _ _ _ (by omega)]
  exact extract_all t

@[simp] theorem fieldNNN_nnn (t : Nibble) (nnn : Addr) : fieldNNN (t ++ nnn) = nnn := by
  rw [fieldNNN, extract_append_low _ _ _ _ (by omega)]
  exact extract_all nnn

/-! ### Formats XKK and X -/

@[simp] theorem fieldT_xkk (t x : Nibble) (kk : Byte) : fieldT (t ++ x ++ kk) = t := by
  rw [fieldT, extract_append_high _ _ _ _ (by omega), extract_append_high _ _ _ _ (by omega)]
  exact extract_all t

@[simp] theorem fieldX_xkk (t x : Nibble) (kk : Byte) : fieldX (t ++ x ++ kk) = Reg.ofBits x := by
  rw [fieldX, extract_append_high _ _ _ _ (by omega), extract_append_low _ _ _ _ (by omega)]
  exact congrArg _ (extract_all x)

@[simp] theorem fieldKK_xkk (t x : Nibble) (kk : Byte) : fieldKK (t ++ x ++ kk) = kk := by
  rw [fieldKK, extract_append_low _ _ _ _ (by omega)]
  exact extract_all kk

/-! ### Formats XY and XYN -/

@[simp] theorem fieldT_xyn (t x y n : Nibble) : fieldT (t ++ x ++ y ++ n) = t := by
  rw [fieldT, extract_append_high _ _ _ _ (by omega), extract_append_high _ _ _ _ (by omega),
    extract_append_high _ _ _ _ (by omega)]
  exact extract_all t

@[simp] theorem fieldX_xyn (t x y n : Nibble) : fieldX (t ++ x ++ y ++ n) = Reg.ofBits x := by
  rw [fieldX, extract_append_high _ _ _ _ (by omega), extract_append_high _ _ _ _ (by omega),
    extract_append_low _ _ _ _ (by omega)]
  exact congrArg _ (extract_all x)

@[simp] theorem fieldY_xyn (t x y n : Nibble) : fieldY (t ++ x ++ y ++ n) = Reg.ofBits y := by
  rw [fieldY, extract_append_high _ _ _ _ (by omega), extract_append_low _ _ _ _ (by omega)]
  exact congrArg _ (extract_all y)

@[simp] theorem fieldN_xyn (t x y n : Nibble) : fieldN (t ++ x ++ y ++ n) = n := by
  rw [fieldN, extract_append_low _ _ _ _ (by omega)]
  exact extract_all n

/-! ### Every word is put together from its fields -/

/-- The nibbles of a word, in each format's grouping. -/
theorem word_eq_nnn (w : OpWord) : w = fieldT w ++ fieldNNN w := by
  apply BitVec.eq_of_getLsbD_eq
  intro i hi
  simp only [fieldT, fieldNNN, BitVec.getLsbD_append, BitVec.getLsbD_extractLsb']
  by_cases h : i < 12
  · simp [h]
  · simp [h, show i - 12 < 4 by omega, show 12 + (i - 12) = i by omega]

theorem word_eq_xkk (w : OpWord) : w = fieldT w ++ (fieldX w).bits ++ fieldKK w := by
  apply BitVec.eq_of_getLsbD_eq
  intro i hi
  simp only [fieldT, fieldX, fieldKK, Reg.bits_ofBits, BitVec.getLsbD_append,
    BitVec.getLsbD_extractLsb']
  by_cases h : i < 8
  · simp [h]
  · by_cases h2 : i < 12
    · simp [h, show i - 8 < 4 by omega, show 8 + (i - 8) = i by omega]
    · simp [h, show ¬ i - 8 < 4 by omega, show i - 8 - 4 < 4 by omega,
        show 12 + (i - 8 - 4) = i by omega]

theorem word_eq_xyn (w : OpWord) :
    w = fieldT w ++ (fieldX w).bits ++ (fieldY w).bits ++ fieldN w := by
  apply BitVec.eq_of_getLsbD_eq
  intro i hi
  simp only [fieldT, fieldX, fieldY, fieldN, Reg.bits_ofBits, BitVec.getLsbD_append,
    BitVec.getLsbD_extractLsb']
  by_cases h : i < 4
  · simp [h]
  · by_cases h2 : i < 8
    · simp [h, show i - 4 < 4 by omega, show 4 + (i - 4) = i by omega]
    · by_cases h3 : i < 12
      · simp [h, show ¬ i - 4 < 4 by omega, show i - 4 - 4 < 4 by omega,
          show 8 + (i - 4 - 4) = i by omega]
      · simp [h, show ¬ i - 4 < 4 by omega, show ¬ i - 4 - 4 < 4 by omega,
          show i - 4 - 4 - 4 < 4 by omega, show 12 + (i - 4 - 4 - 4) = i by omega]

end Sys2Proof
end

