-- ==== Sys2Proof/Laws/State.lean ====
section
/-! SUPPORT. What each update of the state does to each field, one lemma each, and what reading a
general register gives after each update. -/

namespace Sys2Proof.Machine

variable (s : State)

/-! ### setV -/

@[simp] theorem State.setV_v (r : Reg) (b : Byte) : (s.setV r b).v = s.v.set r.val b r.isLt := rfl
@[simp] theorem State.setV_index (r : Reg) (b : Byte) : (s.setV r b).index = s.index := rfl
@[simp] theorem State.setV_pc (r : Reg) (b : Byte) : (s.setV r b).pc = s.pc := rfl
@[simp] theorem State.setV_stack (r : Reg) (b : Byte) : (s.setV r b).stack = s.stack := rfl
@[simp] theorem State.setV_dt (r : Reg) (b : Byte) : (s.setV r b).dt = s.dt := rfl
@[simp] theorem State.setV_st (r : Reg) (b : Byte) : (s.setV r b).st = s.st := rfl
@[simp] theorem State.setV_mem (r : Reg) (b : Byte) : (s.setV r b).mem = s.mem := rfl
@[simp] theorem State.setV_fb (r : Reg) (b : Byte) : (s.setV r b).fb = s.fb := rfl
@[simp] theorem State.setV_key (r : Reg) (b : Byte) : (s.setV r b).key = s.key := rfl
@[simp] theorem State.setV_mode (r : Reg) (b : Byte) : (s.setV r b).mode = s.mode := rfl
@[simp] theorem State.setV_latch (r : Reg) (b : Byte) : (s.setV r b).latch = s.latch := rfl
@[simp] theorem State.setV_log (r : Reg) (b : Byte) : (s.setV r b).log = s.log := rfl
@[simp] theorem State.setV_config (r : Reg) (b : Byte) : (s.setV r b).config = s.config := rfl
@[simp] theorem State.setV_draws (r : Reg) (b : Byte) : (s.setV r b).draws = s.draws := rfl
@[simp] theorem State.setV_schedule (r : Reg) (b : Byte) : (s.setV r b).schedule = s.schedule := rfl

/-! ### setVThenFlag -/

@[simp] theorem State.setVThenFlag_index (x : Reg) (b f : Byte) :
    (s.setVThenFlag x b f).index = s.index := rfl
@[simp] theorem State.setVThenFlag_pc (x : Reg) (b f : Byte) :
    (s.setVThenFlag x b f).pc = s.pc := rfl
@[simp] theorem State.setVThenFlag_stack (x : Reg) (b f : Byte) :
    (s.setVThenFlag x b f).stack = s.stack := rfl
@[simp] theorem State.setVThenFlag_dt (x : Reg) (b f : Byte) :
    (s.setVThenFlag x b f).dt = s.dt := rfl
@[simp] theorem State.setVThenFlag_st (x : Reg) (b f : Byte) :
    (s.setVThenFlag x b f).st = s.st := rfl
@[simp] theorem State.setVThenFlag_mem (x : Reg) (b f : Byte) :
    (s.setVThenFlag x b f).mem = s.mem := rfl
@[simp] theorem State.setVThenFlag_fb (x : Reg) (b f : Byte) :
    (s.setVThenFlag x b f).fb = s.fb := rfl
@[simp] theorem State.setVThenFlag_key (x : Reg) (b f : Byte) :
    (s.setVThenFlag x b f).key = s.key := rfl
@[simp] theorem State.setVThenFlag_mode (x : Reg) (b f : Byte) :
    (s.setVThenFlag x b f).mode = s.mode := rfl
@[simp] theorem State.setVThenFlag_latch (x : Reg) (b f : Byte) :
    (s.setVThenFlag x b f).latch = s.latch := rfl
@[simp] theorem State.setVThenFlag_log (x : Reg) (b f : Byte) :
    (s.setVThenFlag x b f).log = s.log := rfl
@[simp] theorem State.setVThenFlag_config (x : Reg) (b f : Byte) :
    (s.setVThenFlag x b f).config = s.config := rfl
@[simp] theorem State.setVThenFlag_draws (x : Reg) (b f : Byte) :
    (s.setVThenFlag x b f).draws = s.draws := rfl
@[simp] theorem State.setVThenFlag_schedule (x : Reg) (b f : Byte) :
    (s.setVThenFlag x b f).schedule = s.schedule := rfl

/-! ### setRegs -/

@[simp] theorem State.setRegs_v (w : Vector Byte 16) : (s.setRegs w).v = w := rfl
@[simp] theorem State.setRegs_index (w : Vector Byte 16) : (s.setRegs w).index = s.index := rfl
@[simp] theorem State.setRegs_pc (w : Vector Byte 16) : (s.setRegs w).pc = s.pc := rfl
@[simp] theorem State.setRegs_stack (w : Vector Byte 16) : (s.setRegs w).stack = s.stack := rfl
@[simp] theorem State.setRegs_dt (w : Vector Byte 16) : (s.setRegs w).dt = s.dt := rfl
@[simp] theorem State.setRegs_st (w : Vector Byte 16) : (s.setRegs w).st = s.st := rfl
@[simp] theorem State.setRegs_mem (w : Vector Byte 16) : (s.setRegs w).mem = s.mem := rfl
@[simp] theorem State.setRegs_fb (w : Vector Byte 16) : (s.setRegs w).fb = s.fb := rfl
@[simp] theorem State.setRegs_key (w : Vector Byte 16) : (s.setRegs w).key = s.key := rfl
@[simp] theorem State.setRegs_mode (w : Vector Byte 16) : (s.setRegs w).mode = s.mode := rfl
@[simp] theorem State.setRegs_latch (w : Vector Byte 16) : (s.setRegs w).latch = s.latch := rfl
@[simp] theorem State.setRegs_log (w : Vector Byte 16) : (s.setRegs w).log = s.log := rfl
@[simp] theorem State.setRegs_config (w : Vector Byte 16) : (s.setRegs w).config = s.config := rfl
@[simp] theorem State.setRegs_draws (w : Vector Byte 16) : (s.setRegs w).draws = s.draws := rfl
@[simp] theorem State.setRegs_schedule (w : Vector Byte 16) :
    (s.setRegs w).schedule = s.schedule := rfl

/-! ### advance -/

@[simp] theorem State.advance_v : (s.advance).v = s.v := rfl
@[simp] theorem State.advance_index : (s.advance).index = s.index := rfl
@[simp] theorem State.advance_pc : (s.advance).pc = s.pc + 2 := rfl
@[simp] theorem State.advance_stack : (s.advance).stack = s.stack := rfl
@[simp] theorem State.advance_dt : (s.advance).dt = s.dt := rfl
@[simp] theorem State.advance_st : (s.advance).st = s.st := rfl
@[simp] theorem State.advance_mem : (s.advance).mem = s.mem := rfl
@[simp] theorem State.advance_fb : (s.advance).fb = s.fb := rfl
@[simp] theorem State.advance_key : (s.advance).key = s.key := rfl
@[simp] theorem State.advance_mode : (s.advance).mode = s.mode := rfl
@[simp] theorem State.advance_latch : (s.advance).latch = s.latch := rfl
@[simp] theorem State.advance_log : (s.advance).log = s.log := rfl
@[simp] theorem State.advance_config : (s.advance).config = s.config := rfl
@[simp] theorem State.advance_draws : (s.advance).draws = s.draws := rfl
@[simp] theorem State.advance_schedule : (s.advance).schedule = s.schedule := rfl

/-! ### setPc -/

@[simp] theorem State.setPc_v (a : Addr) : (s.setPc a).v = s.v := rfl
@[simp] theorem State.setPc_index (a : Addr) : (s.setPc a).index = s.index := rfl
@[simp] theorem State.setPc_pc (a : Addr) : (s.setPc a).pc = a := rfl
@[simp] theorem State.setPc_stack (a : Addr) : (s.setPc a).stack = s.stack := rfl
@[simp] theorem State.setPc_dt (a : Addr) : (s.setPc a).dt = s.dt := rfl
@[simp] theorem State.setPc_st (a : Addr) : (s.setPc a).st = s.st := rfl
@[simp] theorem State.setPc_mem (a : Addr) : (s.setPc a).mem = s.mem := rfl
@[simp] theorem State.setPc_fb (a : Addr) : (s.setPc a).fb = s.fb := rfl
@[simp] theorem State.setPc_key (a : Addr) : (s.setPc a).key = s.key := rfl
@[simp] theorem State.setPc_mode (a : Addr) : (s.setPc a).mode = s.mode := rfl
@[simp] theorem State.setPc_latch (a : Addr) : (s.setPc a).latch = s.latch := rfl
@[simp] theorem State.setPc_log (a : Addr) : (s.setPc a).log = s.log := rfl
@[simp] theorem State.setPc_config (a : Addr) : (s.setPc a).config = s.config := rfl
@[simp] theorem State.setPc_draws (a : Addr) : (s.setPc a).draws = s.draws := rfl
@[simp] theorem State.setPc_schedule (a : Addr) : (s.setPc a).schedule = s.schedule := rfl

/-! ### setIndex -/

@[simp] theorem State.setIndex_v (a : Addr) : (s.setIndex a).v = s.v := rfl
@[simp] theorem State.setIndex_index (a : Addr) : (s.setIndex a).index = a := rfl
@[simp] theorem State.setIndex_pc (a : Addr) : (s.setIndex a).pc = s.pc := rfl
@[simp] theorem State.setIndex_stack (a : Addr) : (s.setIndex a).stack = s.stack := rfl
@[simp] theorem State.setIndex_dt (a : Addr) : (s.setIndex a).dt = s.dt := rfl
@[simp] theorem State.setIndex_st (a : Addr) : (s.setIndex a).st = s.st := rfl
@[simp] theorem State.setIndex_mem (a : Addr) : (s.setIndex a).mem = s.mem := rfl
@[simp] theorem State.setIndex_fb (a : Addr) : (s.setIndex a).fb = s.fb := rfl
@[simp] theorem State.setIndex_key (a : Addr) : (s.setIndex a).key = s.key := rfl
@[simp] theorem State.setIndex_mode (a : Addr) : (s.setIndex a).mode = s.mode := rfl
@[simp] theorem State.setIndex_latch (a : Addr) : (s.setIndex a).latch = s.latch := rfl
@[simp] theorem State.setIndex_log (a : Addr) : (s.setIndex a).log = s.log := rfl
@[simp] theorem State.setIndex_config (a : Addr) : (s.setIndex a).config = s.config := rfl
@[simp] theorem State.setIndex_draws (a : Addr) : (s.setIndex a).draws = s.draws := rfl
@[simp] theorem State.setIndex_schedule (a : Addr) : (s.setIndex a).schedule = s.schedule := rfl

/-! ### setDt -/

@[simp] theorem State.setDt_v (b : Byte) : (s.setDt b).v = s.v := rfl
@[simp] theorem State.setDt_index (b : Byte) : (s.setDt b).index = s.index := rfl
@[simp] theorem State.setDt_pc (b : Byte) : (s.setDt b).pc = s.pc := rfl
@[simp] theorem State.setDt_stack (b : Byte) : (s.setDt b).stack = s.stack := rfl
@[simp] theorem State.setDt_dt (b : Byte) : (s.setDt b).dt = b := rfl
@[simp] theorem State.setDt_st (b : Byte) : (s.setDt b).st = s.st := rfl
@[simp] theorem State.setDt_mem (b : Byte) : (s.setDt b).mem = s.mem := rfl
@[simp] theorem State.setDt_fb (b : Byte) : (s.setDt b).fb = s.fb := rfl
@[simp] theorem State.setDt_key (b : Byte) : (s.setDt b).key = s.key := rfl
@[simp] theorem State.setDt_mode (b : Byte) : (s.setDt b).mode = s.mode := rfl
@[simp] theorem State.setDt_latch (b : Byte) : (s.setDt b).latch = s.latch := rfl
@[simp] theorem State.setDt_log (b : Byte) : (s.setDt b).log = s.log := rfl
@[simp] theorem State.setDt_config (b : Byte) : (s.setDt b).config = s.config := rfl
@[simp] theorem State.setDt_draws (b : Byte) : (s.setDt b).draws = s.draws := rfl
@[simp] theorem State.setDt_schedule (b : Byte) : (s.setDt b).schedule = s.schedule := rfl

/-! ### setSt -/

@[simp] theorem State.setSt_v (b : Byte) : (s.setSt b).v = s.v := rfl
@[simp] theorem State.setSt_index (b : Byte) : (s.setSt b).index = s.index := rfl
@[simp] theorem State.setSt_pc (b : Byte) : (s.setSt b).pc = s.pc := rfl
@[simp] theorem State.setSt_stack (b : Byte) : (s.setSt b).stack = s.stack := rfl
@[simp] theorem State.setSt_dt (b : Byte) : (s.setSt b).dt = s.dt := rfl
@[simp] theorem State.setSt_st (b : Byte) : (s.setSt b).st = b := rfl
@[simp] theorem State.setSt_mem (b : Byte) : (s.setSt b).mem = s.mem := rfl
@[simp] theorem State.setSt_fb (b : Byte) : (s.setSt b).fb = s.fb := rfl
@[simp] theorem State.setSt_key (b : Byte) : (s.setSt b).key = s.key := rfl
@[simp] theorem State.setSt_mode (b : Byte) : (s.setSt b).mode = s.mode := rfl
@[simp] theorem State.setSt_latch (b : Byte) : (s.setSt b).latch = s.latch := rfl
@[simp] theorem State.setSt_log (b : Byte) : (s.setSt b).log = s.log := rfl
@[simp] theorem State.setSt_config (b : Byte) : (s.setSt b).config = s.config := rfl
@[simp] theorem State.setSt_draws (b : Byte) : (s.setSt b).draws = s.draws := rfl
@[simp] theorem State.setSt_schedule (b : Byte) : (s.setSt b).schedule = s.schedule := rfl

/-! ### setMem -/

@[simp] theorem State.setMem_v (m : Memory) : (s.setMem m).v = s.v := rfl
@[simp] theorem State.setMem_index (m : Memory) : (s.setMem m).index = s.index := rfl
@[simp] theorem State.setMem_pc (m : Memory) : (s.setMem m).pc = s.pc := rfl
@[simp] theorem State.setMem_stack (m : Memory) : (s.setMem m).stack = s.stack := rfl
@[simp] theorem State.setMem_dt (m : Memory) : (s.setMem m).dt = s.dt := rfl
@[simp] theorem State.setMem_st (m : Memory) : (s.setMem m).st = s.st := rfl
@[simp] theorem State.setMem_mem (m : Memory) : (s.setMem m).mem = m := rfl
@[simp] theorem State.setMem_fb (m : Memory) : (s.setMem m).fb = s.fb := rfl
@[simp] theorem State.setMem_key (m : Memory) : (s.setMem m).key = s.key := rfl
@[simp] theorem State.setMem_mode (m : Memory) : (s.setMem m).mode = s.mode := rfl
@[simp] theorem State.setMem_latch (m : Memory) : (s.setMem m).latch = s.latch := rfl
@[simp] theorem State.setMem_log (m : Memory) : (s.setMem m).log = s.log := rfl
@[simp] theorem State.setMem_config (m : Memory) : (s.setMem m).config = s.config := rfl
@[simp] theorem State.setMem_draws (m : Memory) : (s.setMem m).draws = s.draws := rfl
@[simp] theorem State.setMem_schedule (m : Memory) : (s.setMem m).schedule = s.schedule := rfl

/-! ### setFb -/

@[simp] theorem State.setFb_v (f : Framebuffer) : (s.setFb f).v = s.v := rfl
@[simp] theorem State.setFb_index (f : Framebuffer) : (s.setFb f).index = s.index := rfl
@[simp] theorem State.setFb_pc (f : Framebuffer) : (s.setFb f).pc = s.pc := rfl
@[simp] theorem State.setFb_stack (f : Framebuffer) : (s.setFb f).stack = s.stack := rfl
@[simp] theorem State.setFb_dt (f : Framebuffer) : (s.setFb f).dt = s.dt := rfl
@[simp] theorem State.setFb_st (f : Framebuffer) : (s.setFb f).st = s.st := rfl
@[simp] theorem State.setFb_mem (f : Framebuffer) : (s.setFb f).mem = s.mem := rfl
@[simp] theorem State.setFb_fb (f : Framebuffer) : (s.setFb f).fb = f := rfl
@[simp] theorem State.setFb_key (f : Framebuffer) : (s.setFb f).key = s.key := rfl
@[simp] theorem State.setFb_mode (f : Framebuffer) : (s.setFb f).mode = s.mode := rfl
@[simp] theorem State.setFb_latch (f : Framebuffer) : (s.setFb f).latch = s.latch := rfl
@[simp] theorem State.setFb_log (f : Framebuffer) : (s.setFb f).log = s.log := rfl
@[simp] theorem State.setFb_config (f : Framebuffer) : (s.setFb f).config = s.config := rfl
@[simp] theorem State.setFb_draws (f : Framebuffer) : (s.setFb f).draws = s.draws := rfl
@[simp] theorem State.setFb_schedule (f : Framebuffer) : (s.setFb f).schedule = s.schedule := rfl

/-! ### emit -/

@[simp] theorem State.emit_v (d : Diagnostic) : (s.emit d).v = s.v := rfl
@[simp] theorem State.emit_index (d : Diagnostic) : (s.emit d).index = s.index := rfl
@[simp] theorem State.emit_pc (d : Diagnostic) : (s.emit d).pc = s.pc := rfl
@[simp] theorem State.emit_stack (d : Diagnostic) : (s.emit d).stack = s.stack := rfl
@[simp] theorem State.emit_dt (d : Diagnostic) : (s.emit d).dt = s.dt := rfl
@[simp] theorem State.emit_st (d : Diagnostic) : (s.emit d).st = s.st := rfl
@[simp] theorem State.emit_mem (d : Diagnostic) : (s.emit d).mem = s.mem := rfl
@[simp] theorem State.emit_fb (d : Diagnostic) : (s.emit d).fb = s.fb := rfl
@[simp] theorem State.emit_key (d : Diagnostic) : (s.emit d).key = s.key := rfl
@[simp] theorem State.emit_mode (d : Diagnostic) : (s.emit d).mode = s.mode := rfl
@[simp] theorem State.emit_latch (d : Diagnostic) : (s.emit d).latch = s.latch := rfl
@[simp] theorem State.emit_log (d : Diagnostic) : (s.emit d).log = s.log ++ [d] := rfl
@[simp] theorem State.emit_config (d : Diagnostic) : (s.emit d).config = s.config := rfl
@[simp] theorem State.emit_draws (d : Diagnostic) : (s.emit d).draws = s.draws := rfl
@[simp] theorem State.emit_schedule (d : Diagnostic) : (s.emit d).schedule = s.schedule := rfl

/-! ### countDraw -/

@[simp] theorem State.countDraw_v : (s.countDraw).v = s.v := rfl
@[simp] theorem State.countDraw_index : (s.countDraw).index = s.index := rfl
@[simp] theorem State.countDraw_pc : (s.countDraw).pc = s.pc := rfl
@[simp] theorem State.countDraw_stack : (s.countDraw).stack = s.stack := rfl
@[simp] theorem State.countDraw_dt : (s.countDraw).dt = s.dt := rfl
@[simp] theorem State.countDraw_st : (s.countDraw).st = s.st := rfl
@[simp] theorem State.countDraw_mem : (s.countDraw).mem = s.mem := rfl
@[simp] theorem State.countDraw_fb : (s.countDraw).fb = s.fb := rfl
@[simp] theorem State.countDraw_key : (s.countDraw).key = s.key := rfl
@[simp] theorem State.countDraw_mode : (s.countDraw).mode = s.mode := rfl
@[simp] theorem State.countDraw_latch : (s.countDraw).latch = s.latch := rfl
@[simp] theorem State.countDraw_log : (s.countDraw).log = s.log := rfl
@[simp] theorem State.countDraw_config : (s.countDraw).config = s.config := rfl
@[simp] theorem State.countDraw_draws : (s.countDraw).draws = s.draws + 1 := rfl
@[simp] theorem State.countDraw_schedule : (s.countDraw).schedule = s.schedule := rfl

/-! ### raise -/

@[simp] theorem State.raise_v (f : Fault) : (s.raise f).v = s.v := rfl
@[simp] theorem State.raise_index (f : Fault) : (s.raise f).index = s.index := rfl
@[simp] theorem State.raise_pc (f : Fault) : (s.raise f).pc = s.pc := rfl
@[simp] theorem State.raise_stack (f : Fault) : (s.raise f).stack = s.stack := rfl
@[simp] theorem State.raise_dt (f : Fault) : (s.raise f).dt = s.dt := rfl
@[simp] theorem State.raise_st (f : Fault) : (s.raise f).st = s.st := rfl
@[simp] theorem State.raise_mem (f : Fault) : (s.raise f).mem = s.mem := rfl
@[simp] theorem State.raise_fb (f : Fault) : (s.raise f).fb = s.fb := rfl
@[simp] theorem State.raise_key (f : Fault) : (s.raise f).key = s.key := rfl
@[simp] theorem State.raise_mode (f : Fault) : (s.raise f).mode = .faulted ⟨f, s.pc⟩ := rfl
@[simp] theorem State.raise_latch (f : Fault) : (s.raise f).latch = s.latch := rfl
@[simp] theorem State.raise_log (f : Fault) : (s.raise f).log = s.log := rfl
@[simp] theorem State.raise_config (f : Fault) : (s.raise f).config = s.config := rfl
@[simp] theorem State.raise_draws (f : Fault) : (s.raise f).draws = s.draws := rfl
@[simp] theorem State.raise_schedule (f : Fault) : (s.raise f).schedule = s.schedule := rfl

/-! ### skipIf -/

@[simp] theorem State.skipIf_v (c : Bool) : (s.skipIf c).v = s.v := by
  cases c <;> rfl
@[simp] theorem State.skipIf_index (c : Bool) : (s.skipIf c).index = s.index := by
  cases c <;> rfl
@[simp] theorem State.skipIf_pc (c : Bool) : (s.skipIf c).pc = if c then s.pc + 4 else s.pc + 2 := by
  cases c <;> simp [State.skipIf, State.setPc, State.advance, BitVec.add_assoc]
@[simp] theorem State.skipIf_stack (c : Bool) : (s.skipIf c).stack = s.stack := by
  cases c <;> rfl
@[simp] theorem State.skipIf_dt (c : Bool) : (s.skipIf c).dt = s.dt := by
  cases c <;> rfl
@[simp] theorem State.skipIf_st (c : Bool) : (s.skipIf c).st = s.st := by
  cases c <;> rfl
@[simp] theorem State.skipIf_mem (c : Bool) : (s.skipIf c).mem = s.mem := by
  cases c <;> rfl
@[simp] theorem State.skipIf_fb (c : Bool) : (s.skipIf c).fb = s.fb := by
  cases c <;> rfl
@[simp] theorem State.skipIf_key (c : Bool) : (s.skipIf c).key = s.key := by
  cases c <;> rfl
@[simp] theorem State.skipIf_mode (c : Bool) : (s.skipIf c).mode = s.mode := by
  cases c <;> rfl
@[simp] theorem State.skipIf_latch (c : Bool) : (s.skipIf c).latch = s.latch := by
  cases c <;> rfl
@[simp] theorem State.skipIf_log (c : Bool) : (s.skipIf c).log = s.log := by
  cases c <;> rfl
@[simp] theorem State.skipIf_config (c : Bool) : (s.skipIf c).config = s.config := by
  cases c <;> rfl
@[simp] theorem State.skipIf_draws (c : Bool) : (s.skipIf c).draws = s.draws := by
  cases c <;> rfl
@[simp] theorem State.skipIf_schedule (c : Bool) : (s.skipIf c).schedule = s.schedule := by
  cases c <;> rfl

/-! ### keySample -/

@[simp] theorem State.keySample_v (k : Keypad) : (s.keySample k).v = s.v := rfl
@[simp] theorem State.keySample_index (k : Keypad) : (s.keySample k).index = s.index := rfl
@[simp] theorem State.keySample_pc (k : Keypad) : (s.keySample k).pc = s.pc := rfl
@[simp] theorem State.keySample_stack (k : Keypad) : (s.keySample k).stack = s.stack := rfl
@[simp] theorem State.keySample_dt (k : Keypad) : (s.keySample k).dt = s.dt := rfl
@[simp] theorem State.keySample_st (k : Keypad) : (s.keySample k).st = s.st := rfl
@[simp] theorem State.keySample_mem (k : Keypad) : (s.keySample k).mem = s.mem := rfl
@[simp] theorem State.keySample_fb (k : Keypad) : (s.keySample k).fb = s.fb := rfl
@[simp] theorem State.keySample_key (k : Keypad) : (s.keySample k).key = k := rfl
@[simp] theorem State.keySample_mode (k : Keypad) : (s.keySample k).mode = s.mode := rfl
@[simp] theorem State.keySample_latch (k : Keypad) : (s.keySample k).latch = s.latchAfter k := rfl
@[simp] theorem State.keySample_log (k : Keypad) : (s.keySample k).log = s.log := rfl
@[simp] theorem State.keySample_config (k : Keypad) : (s.keySample k).config = s.config := rfl
@[simp] theorem State.keySample_draws (k : Keypad) : (s.keySample k).draws = s.draws := rfl
@[simp] theorem State.keySample_schedule (k : Keypad) : (s.keySample k).schedule = s.schedule := rfl

/-! ### completeWait -/

@[simp] theorem State.completeWait_v (x : Reg) (k : Key) :
    (s.completeWait x k).v = s.v.set x.val (BitVec.ofNat 8 k.val) x.isLt := rfl
@[simp] theorem State.completeWait_index (x : Reg) (k : Key) :
    (s.completeWait x k).index = s.index := rfl
@[simp] theorem State.completeWait_pc (x : Reg) (k : Key) :
    (s.completeWait x k).pc = s.pc + 2 := rfl
@[simp] theorem State.completeWait_stack (x : Reg) (k : Key) :
    (s.completeWait x k).stack = s.stack := rfl
@[simp] theorem State.completeWait_dt (x : Reg) (k : Key) : (s.completeWait x k).dt = s.dt := rfl
@[simp] theorem State.completeWait_st (x : Reg) (k : Key) : (s.completeWait x k).st = s.st := rfl
@[simp] theorem State.completeWait_mem (x : Reg) (k : Key) : (s.completeWait x k).mem = s.mem := rfl
@[simp] theorem State.completeWait_fb (x : Reg) (k : Key) : (s.completeWait x k).fb = s.fb := rfl
@[simp] theorem State.completeWait_key (x : Reg) (k : Key) : (s.completeWait x k).key = s.key := rfl
@[simp] theorem State.completeWait_mode (x : Reg) (k : Key) :
    (s.completeWait x k).mode = .running := rfl
@[simp] theorem State.completeWait_latch (x : Reg) (k : Key) :
    (s.completeWait x k).latch = none := rfl
@[simp] theorem State.completeWait_log (x : Reg) (k : Key) : (s.completeWait x k).log = s.log := rfl
@[simp] theorem State.completeWait_config (x : Reg) (k : Key) :
    (s.completeWait x k).config = s.config := rfl
@[simp] theorem State.completeWait_draws (x : Reg) (k : Key) :
    (s.completeWait x k).draws = s.draws := rfl
@[simp] theorem State.completeWait_schedule (x : Reg) (k : Key) :
    (s.completeWait x k).schedule = s.schedule := rfl

/-! ### Reading a general register -/

theorem State.getV_eq_getElem (r : Reg) : s.getV r = s.v[r.val] := rfl

@[simp] theorem State.getV_setV (x r : Reg) (b : Byte) :
    (s.setV x b).getV r = if r = x then b else s.getV r := by
  simp only [State.getV_eq_getElem, State.setV_v, Vector.getElem_set, eq_comm, Fin.ext_iff]

@[simp] theorem State.getV_setVThenFlag (x r : Reg) (b f : Byte) :
    (s.setVThenFlag x b f).getV r = if r = regF then f else if r = x then b else s.getV r := by
  simp [State.setVThenFlag]

@[simp] theorem State.getV_completeWait (x r : Reg) (k : Key) :
    (s.completeWait x k).getV r = if r = x then BitVec.ofNat 8 k.val else s.getV r :=
  State.getV_setV s.advance x r _

@[simp] theorem State.getV_advance (r : Reg) : (s.advance).getV r = s.getV r := by
  simp [State.getV]
@[simp] theorem State.getV_setPc (a : Addr) (r : Reg) : (s.setPc a).getV r = s.getV r := by
  simp [State.getV]
@[simp] theorem State.getV_setIndex (a : Addr) (r : Reg) : (s.setIndex a).getV r = s.getV r := by
  simp [State.getV]
@[simp] theorem State.getV_setDt (b : Byte) (r : Reg) : (s.setDt b).getV r = s.getV r := by
  simp [State.getV]
@[simp] theorem State.getV_setSt (b : Byte) (r : Reg) : (s.setSt b).getV r = s.getV r := by
  simp [State.getV]
@[simp] theorem State.getV_setMem (m : Memory) (r : Reg) : (s.setMem m).getV r = s.getV r := by
  simp [State.getV]
@[simp] theorem State.getV_setFb (f : Framebuffer) (r : Reg) : (s.setFb f).getV r = s.getV r := by
  simp [State.getV]
@[simp] theorem State.getV_emit (d : Diagnostic) (r : Reg) : (s.emit d).getV r = s.getV r := by
  simp [State.getV]
@[simp] theorem State.getV_countDraw (r : Reg) : (s.countDraw).getV r = s.getV r := by
  simp [State.getV]
@[simp] theorem State.getV_raise (f : Fault) (r : Reg) : (s.raise f).getV r = s.getV r := by
  simp [State.getV]
@[simp] theorem State.getV_skipIf (c : Bool) (r : Reg) : (s.skipIf c).getV r = s.getV r := by
  simp [State.getV]
@[simp] theorem State.getV_keySample (k : Keypad) (r : Reg) : (s.keySample k).getV r = s.getV r := by
  simp [State.getV]

/-! ### The operand forms over the updates that leave their sources alone -/

@[simp] theorem State.advance_effAddr (k : Nat) : s.advance.effAddr k = s.effAddr k := rfl

@[simp] theorem State.effAddr_zero : s.effAddr 0 = s.index.toNat := rfl

end Sys2Proof.Machine
end

