-- ==== Sys2Proof/Laws/Display.lean ====
section
/-! SUPPORT. Laws of the framebuffer: what toggling one pixel does, and the closed form of the loops of
43_display.md R172. Each lit pixel of a sprite lands on a place of its own, because a sprite is at most
8 pixels wide and at most 15 rows high. -/

namespace Sys2Proof.Machine

@[simp] theorem clearFb_pixel (x : Fin 64) (y : Fin 32) : clearFb.pixel x y = false := by
  simp [clearFb, Framebuffer.pixel, Vector.get]

/-- Toggling one pixel changes that pixel and no other. -/
theorem Framebuffer.pixel_toggle (fb : Framebuffer) (x a : Fin 64) (y b : Fin 32) :
    (fb.toggle x y).pixel a b = (fb.pixel a b ^^ (decide (a = x) && decide (b = y))) := by
  obtain ⟨a, ha⟩ := a
  obtain ⟨b, hb⟩ := b
  obtain ⟨x, hx⟩ := x
  obtain ⟨y, hy⟩ := y
  have e : ∀ (g : Framebuffer) (i : Nat) (hi : i < 64) (j : Nat) (hj : j < 32),
      g.pixel ⟨i, hi⟩ ⟨j, hj⟩ = g[j][i] := fun _ _ _ _ _ => rfl
  have r : ∀ (j : Nat) (hj : j < 32), Vector.get fb ⟨j, hj⟩ = fb[j] := fun _ _ => rfl
  simp only [Framebuffer.toggle, e, r, Vector.getElem_set, Fin.mk.injEq]
  by_cases hby : y = b
  · subst hby
    by_cases hax : x = a
    · subst hax
      simp
    · simp [hax, Ne.symm hax]
  · simp [hby, Ne.symm hby]

/-- The sprite column that lands on framebuffer column `a` when column 0 is at `x0`. -/
def spriteCol (x0 : Nat) (a : Fin 64) : Nat := (a.val + 64 - x0) % 64

/-- The sprite row that lands on framebuffer row `b` when row 0 is at `y0`. -/
def spriteRow (y0 : Nat) (b : Fin 32) : Nat := (b.val + 32 - y0) % 32

/-- Whether the sprite of these rows is lit at row `r`, column `c`; nothing is lit outside it. -/
def spriteLit (rows : List Byte) (r c : Nat) : Bool := decide (c < 8) && rowBit (rows.getD r 0) c

theorem col_hit {x0 c : Nat} (hx : x0 < 64) (hc : c < 64) (a : Fin 64) :
    a = Fin.ofNat 64 (x0 + c) ↔ spriteCol x0 a = c := by
  have := a.isLt
  simp only [Fin.ext_iff, Fin.val_ofNat, spriteCol]
  omega

theorem row_hit {y0 r : Nat} (hy : y0 < 32) (hr : r < 32) (b : Fin 32) :
    b = Fin.ofNat 32 (y0 + r) ↔ spriteRow y0 b = r := by
  have := b.isLt
  simp only [Fin.ext_iff, Fin.val_ofNat, spriteRow]
  omega

/-- One step of the inner loop of R172. -/
def drawCol (x0 y0 r : Nat) (row : Byte) (p : Framebuffer × Bool) (c : Nat) : Framebuffer × Bool :=
  if rowBit row c then drawPixel p (Fin.ofNat 64 (x0 + c)) (Fin.ofNat 32 (y0 + r)) else p

theorem drawRow_eq (x0 y0 r : Nat) (row : Byte) (p : Framebuffer × Bool) :
    drawRow x0 y0 r row p = (List.range 8).foldl (drawCol x0 y0 r row) p := rfl

/-- The first `m` columns of the inner loop: the pixels. -/
theorem drawCols_pixel {x0 y0 r : Nat} (hx : x0 < 64) (hy : y0 < 32) (hr : r < 32) (row : Byte)
    (p : Framebuffer × Bool) (a : Fin 64) (b : Fin 32) {m : Nat} (hm : m ≤ 8) :
    ((List.range m).foldl (drawCol x0 y0 r row) p).1.pixel a b =
      (p.1.pixel a b ^^ (decide (spriteRow y0 b = r) &&
        (decide (spriteCol x0 a < m) && rowBit row (spriteCol x0 a)))) := by
  induction m with
  | zero => simp
  | succ m ih =>
    have ih := ih (by omega)
    rw [List.range_succ, List.foldl_append, List.foldl_cons, List.foldl_nil]
    generalize hq : (List.range m).foldl (drawCol x0 y0 r row) p = q at ih ⊢
    unfold drawCol
    by_cases hb : rowBit row m
    · simp only [hb, if_true, drawPixel, Framebuffer.pixel_toggle, ih, col_hit hx (by omega : m < 64),
        row_hit hy hr]
      by_cases hc : spriteCol x0 a = m
      · simp [hc, hb]
      · simp [hc, show spriteCol x0 a < m + 1 ↔ spriteCol x0 a < m by omega]
    · rw [if_neg hb, ih]
      by_cases hc : spriteCol x0 a = m
      · simp [hc, hb]
      · simp [show spriteCol x0 a < m + 1 ↔ spriteCol x0 a < m by omega]

/-- The first `m` columns of the inner loop: the collision. -/
theorem drawCols_collision {x0 y0 r : Nat} (hx : x0 < 64) (hy : y0 < 32) (hr : r < 32) (row : Byte)
    (p : Framebuffer × Bool) {m : Nat} (hm : m ≤ 8) :
    ((List.range m).foldl (drawCol x0 y0 r row) p).2 = true ↔
      (p.2 = true ∨ ∃ a b, p.1.pixel a b = true ∧ spriteRow y0 b = r ∧ spriteCol x0 a < m ∧
        rowBit row (spriteCol x0 a) = true) := by
  induction m with
  | zero => simp
  | succ m ih =>
    have ih := ih (by omega)
    have hp := fun a b => drawCols_pixel hx hy hr row p a b (m := m) (by omega)
    rw [List.range_succ, List.foldl_append, List.foldl_cons, List.foldl_nil]
    generalize hq : (List.range m).foldl (drawCol x0 y0 r row) p = q at ih hp ⊢
    have hcol : spriteCol x0 (Fin.ofNat 64 (x0 + m)) = m := (col_hit hx (by omega) _).mp rfl
    have hrow : spriteRow y0 (Fin.ofNat 32 (y0 + r)) = r := (row_hit hy hr _).mp rfl
    unfold drawCol
    by_cases hb : rowBit row m
    · simp only [hb, if_true, drawPixel, Bool.or_eq_true, ih, hp, hcol, hrow]
      constructor
      · rintro ((h | ⟨a, b, h1, h2, h3, h4⟩) | h)
        · exact .inl h
        · exact .inr ⟨a, b, h1, h2, by omega, h4⟩
        · exact .inr ⟨Fin.ofNat 64 (x0 + m), Fin.ofNat 32 (y0 + r), by simpa using h, hrow, by omega,
            by rw [hcol]; exact hb⟩
      · rintro (h | ⟨a, b, h1, h2, h3, h4⟩)
        · exact .inl (.inl h)
        · by_cases hc : spriteCol x0 a = m
          · rw [(col_hit hx (by omega) a).mpr hc, (row_hit hy hr b).mpr h2] at h1
            exact .inr (by simpa using h1)
          · exact .inl (.inr ⟨a, b, h1, h2, by omega, h4⟩)
    · rw [if_neg hb, ih]
      constructor
      · rintro (h | ⟨a, b, h1, h2, h3, h4⟩)
        · exact .inl h
        · exact .inr ⟨a, b, h1, h2, by omega, h4⟩
      · rintro (h | ⟨a, b, h1, h2, h3, h4⟩)
        · exact .inl h
        · refine .inr ⟨a, b, h1, h2, ?_, h4⟩
          by_contra hlt
          rw [show spriteCol x0 a = m by omega] at h4
          exact hb h4

theorem spriteLit_cons (row : Byte) (rows : List Byte) (r c : Nat) :
    spriteLit (row :: rows) r c =
      if r = 0 then decide (c < 8) && rowBit row c else spriteLit rows (r - 1) c := by
  cases r <;> simp [spriteLit]

/-- The outer loop from row number `r` on: the pixels. -/
theorem drawRows_pixel {x0 y0 : Nat} (hx : x0 < 64) (hy : y0 < 32) (rows : List Byte) (r : Nat)
    (hr : r + rows.length ≤ 32) (p : Framebuffer × Bool) (a : Fin 64) (b : Fin 32) :
    (drawRows x0 y0 r rows p).1.pixel a b =
      (p.1.pixel a b ^^ (decide (r ≤ spriteRow y0 b) &&
        spriteLit rows (spriteRow y0 b - r) (spriteCol x0 a))) := by
  induction rows generalizing r p with
  | nil => simp [drawRows, spriteLit, rowBit]
  | cons row rows ih =>
    simp only [List.length_cons] at hr
    rw [drawRows, ih (r + 1) (by omega), drawRow_eq,
      drawCols_pixel hx hy (by omega) row p a b (Nat.le_refl 8), spriteLit_cons]
    by_cases h1 : spriteRow y0 b = r
    · simp [h1]
    · by_cases h2 : r ≤ spriteRow y0 b
      · simp [h1, h2, show r + 1 ≤ spriteRow y0 b by omega, show spriteRow y0 b - r ≠ 0 by omega,
          show spriteRow y0 b - r - 1 = spriteRow y0 b - (r + 1) by omega]
      · simp [h1, h2, show ¬ r + 1 ≤ spriteRow y0 b by omega]

/-- The outer loop from row number `r` on: the collision, over every row drawn. -/
theorem drawRows_collision {x0 y0 : Nat} (hx : x0 < 64) (hy : y0 < 32) (rows : List Byte) (r : Nat)
    (hr : r + rows.length ≤ 32) (p : Framebuffer × Bool) :
    (drawRows x0 y0 r rows p).2 = true ↔
      (p.2 = true ∨ ∃ a b, p.1.pixel a b = true ∧ r ≤ spriteRow y0 b ∧
        spriteLit rows (spriteRow y0 b - r) (spriteCol x0 a) = true) := by
  induction rows generalizing r p with
  | nil => simp [drawRows, spriteLit, rowBit]
  | cons row rows ih =>
    simp only [List.length_cons] at hr
    have hc := drawCols_collision hx hy (r := r) (by omega) row p (Nat.le_refl 8)
    have hp := fun a b => drawCols_pixel hx hy (r := r) (by omega) row p a b (Nat.le_refl 8)
    rw [← drawRow_eq] at hc
    simp only [← drawRow_eq] at hp
    rw [drawRows, ih (r + 1) (by omega), hc]
    simp only [hp, spriteLit_cons]
    constructor
    · rintro ((h | ⟨a, b, h1, h2, h3, h4⟩) | ⟨a, b, h1, h2, h3⟩)
      · exact .inl h
      · exact .inr ⟨a, b, h1, by omega, by simp [h2, h3, h4]⟩
      · have hne : spriteRow y0 b ≠ r := by omega
        refine .inr ⟨a, b, by simpa [hne] using h1, by omega, ?_⟩
        rw [if_neg (by omega), show spriteRow y0 b - r - 1 = spriteRow y0 b - (r + 1) by omega]
        exact h3
    · rintro (h | ⟨a, b, h1, h2, h3⟩)
      · exact .inl (.inl h)
      · by_cases hr0 : spriteRow y0 b = r
        · rw [if_pos (by omega)] at h3
          simp only [Bool.and_eq_true, decide_eq_true_eq] at h3
          exact .inl (.inr ⟨a, b, h1, hr0, h3.1, h3.2⟩)
        · rw [if_neg (by omega), show spriteRow y0 b - r - 1 = spriteRow y0 b - (r + 1) by omega] at h3
          exact .inr ⟨a, b, by simpa [hr0] using h1, by omega, h3⟩

/-- Drawing a sprite: every pixel is XORed with the sprite's pixel that lands on it. -/
theorem drawSprite_pixel (fb : Framebuffer) (vx vy : Byte) (rows : List Byte)
    (hr : rows.length ≤ 32) (a : Fin 64) (b : Fin 32) :
    (drawSprite fb vx vy rows).1.pixel a b =
      (fb.pixel a b ^^ spriteLit rows (spriteRow (vy.toNat % 32) b) (spriteCol (vx.toNat % 64) a)) := by
  rw [drawSprite, drawRows_pixel (Nat.mod_lt _ (by omega)) (Nat.mod_lt _ (by omega)) rows 0 (by omega)]
  simp

/-- Drawing a sprite: a collision is a pixel that was on under a lit pixel of the sprite. -/
theorem drawSprite_collision (fb : Framebuffer) (vx vy : Byte) (rows : List Byte)
    (hr : rows.length ≤ 32) :
    (drawSprite fb vx vy rows).2 = true ↔ ∃ a b, fb.pixel a b = true ∧
      spriteLit rows (spriteRow (vy.toNat % 32) b) (spriteCol (vx.toNat % 64) a) = true := by
  rw [drawSprite, drawRows_collision (Nat.mod_lt _ (by omega)) (Nat.mod_lt _ (by omega)) rows 0
    (by omega)]
  simp

end Sys2Proof.Machine
end

