-- ==== Sys2Proof/Laws/Memory.lean ====
section
/-! SUPPORT. Laws of memory: a read after a write, the canonical form is kept, and one closed form for
each operation over several bytes. -/

namespace Sys2Proof.Machine

/-! ### Reading after writing -/

theorem Memory.read_consByte (m : Memory) (a c : Nat) (b : Byte) (h : m.read a = Memory.unlisted a) :
    (Memory.consByte a b m).read c = if c = a then b else m.read c := by
  unfold Memory.consByte
  split
  · next hb => split <;> simp_all
  · simp [Memory.read]

theorem Memory.read_of_wfAbove {lo a : Nat} {m : Memory} (h : Memory.wfAbove lo m = true)
    (ha : a < lo) : m.read a = Memory.unlisted a := by
  induction m generalizing lo with
  | nil => rfl
  | cons e rest ih =>
    obtain ⟨c, b⟩ := e
    simp only [Memory.wfAbove, Bool.and_eq_true, decide_eq_true_eq] at h
    have hne : a ≠ c := by omega
    simp only [Memory.read, if_neg hne]
    exact ih h.2 (by omega)

theorem Memory.read_write_above {lo : Nat} {m : Memory} (h : Memory.wfAbove lo m = true)
    (a c : Nat) (b : Byte) : (m.write a b).read c = if c = a then b else m.read c := by
  induction m generalizing lo with
  | nil => exact Memory.read_consByte [] a c b rfl
  | cons e rest ih =>
    obtain ⟨d, x⟩ := e
    simp only [Memory.wfAbove, Bool.and_eq_true, decide_eq_true_eq] at h
    unfold Memory.write
    split
    · next hlt =>
      refine Memory.read_consByte _ a c b ?_
      have hne : a ≠ d := by omega
      simp only [Memory.read, if_neg hne]
      exact Memory.read_of_wfAbove h.2 (by omega)
    · split
      · next heq =>
        subst heq
        rw [Memory.read_consByte rest a c b (Memory.read_of_wfAbove h.2 (by omega))]
        by_cases hc : c = a <;> simp [Memory.read, hc]
      · next hne =>
        simp only [Memory.read, ih h.2]
        by_cases hc : c = d
        · have : c ≠ a := by omega
          simp [hc, show ¬ d = a by omega]
        · simp [hc]

/-- A read after a write gives the byte written at its address, and the old byte elsewhere. -/
theorem Memory.read_write {m : Memory} (h : m.wf = true) (a c : Nat) (b : Byte) :
    (m.write a b).read c = if c = a then b else m.read c :=
  Memory.read_write_above h a c b

/-! ### The canonical form is kept -/

theorem Memory.wfAbove_mono {lo hi : Nat} {m : Memory} (hle : lo ≤ hi)
    (h : Memory.wfAbove hi m = true) : Memory.wfAbove lo m = true := by
  cases m with
  | nil => rfl
  | cons e rest =>
    obtain ⟨c, b⟩ := e
    simp only [Memory.wfAbove, Bool.and_eq_true, decide_eq_true_eq] at h ⊢
    exact ⟨⟨⟨by omega, h.1.1.2⟩, h.1.2⟩, h.2⟩

theorem Memory.wfAbove_consByte {lo a : Nat} {m : Memory} (b : Byte) (hlo : lo ≤ a)
    (ha : a < memSize) (h : Memory.wfAbove (a + 1) m = true) :
    Memory.wfAbove lo (Memory.consByte a b m) = true := by
  unfold Memory.consByte
  split
  · exact Memory.wfAbove_mono (by omega) h
  · next hb => simp [Memory.wfAbove, hlo, ha, hb, h]

theorem Memory.wfAbove_write {lo a : Nat} {m : Memory} (b : Byte) (hlo : lo ≤ a) (ha : a < memSize)
    (h : Memory.wfAbove lo m = true) : Memory.wfAbove lo (m.write a b) = true := by
  induction m generalizing lo with
  | nil => exact Memory.wfAbove_consByte b hlo ha rfl
  | cons e rest ih =>
    obtain ⟨d, x⟩ := e
    have h0 := h
    simp only [Memory.wfAbove, Bool.and_eq_true, decide_eq_true_eq] at h
    unfold Memory.write
    split
    · next hlt =>
      refine Memory.wfAbove_consByte b hlo ha ?_
      simp only [Memory.wfAbove, Bool.and_eq_true, decide_eq_true_eq]
      exact ⟨⟨⟨by omega, h.1.1.2⟩, h.1.2⟩, h.2⟩
    · split
      · next heq =>
        subst heq
        exact Memory.wfAbove_consByte b hlo ha h.2
      · simp only [Memory.wfAbove, Bool.and_eq_true, decide_eq_true_eq]
        exact ⟨h.1, ih (by omega) h.2⟩

/-- A write inside memory keeps the canonical form. -/
theorem Memory.wf_write {m : Memory} (h : m.wf = true) {a : Nat} (ha : a < memSize) (b : Byte) :
    (m.write a b).wf = true :=
  Memory.wfAbove_write b (Nat.zero_le a) ha h

theorem Memory.wf_writeAll {m : Memory} (h : m.wf = true) {a : Nat} {bs : List Byte}
    (ha : a + bs.length ≤ memSize) : (m.writeAll a bs).wf = true := by
  induction bs generalizing m a with
  | nil => exact h
  | cons b bs ih =>
    simp only [List.length_cons] at ha
    exact ih (Memory.wf_write h (by omega) b) (by omega)

/-- Reading after writing bytes at consecutive addresses. -/
theorem Memory.read_writeAll {m : Memory} (h : m.wf = true) {a : Nat} {bs : List Byte}
    (ha : a + bs.length ≤ memSize) (c : Nat) :
    (m.writeAll a bs).read c =
      if a ≤ c ∧ c < a + bs.length then bs.getD (c - a) 0 else m.read c := by
  induction bs generalizing m a with
  | nil => simp [Memory.writeAll]
  | cons b bs ih =>
    simp only [List.length_cons] at ha
    simp only [Memory.writeAll, List.length_cons]
    rw [ih (Memory.wf_write h (by omega) b) (by omega), Memory.read_write h]
    by_cases hc : c = a
    · subst hc
      simp
    · by_cases hin : a + 1 ≤ c ∧ c < a + 1 + bs.length
      · have e : c - a = (c - (a + 1)) + 1 := by omega
        rw [if_pos hin, if_pos (by omega), e, List.getD_cons_succ]
      · rw [if_neg hin, if_neg hc, if_neg (by omega)]

/-! ### The operations over several bytes -/

theorem readByte_ok {a : Nat} (m : Memory) (h : a < memSize) : readByte m a = .ok (m.read a) := by
  simp [readByte, h]

theorem readByte_error {a : Nat} (m : Memory) (h : memSize ≤ a) :
    readByte m a = .error (.memoryOutOfBounds a) := by
  simp [readByte, Nat.not_lt.mpr h]

/-- Reading a range that lies in memory gives its bytes in order. -/
theorem readRange_ok (m : Memory) {a n : Nat} (h : a + n ≤ memSize) :
    readRange m a n = .ok ((List.range n).map fun k => m.read (a + k)) := by
  induction n generalizing a with
  | zero => rfl
  | succ n ih =>
    rw [readRange, readByte_ok m (by omega), ih (by omega), List.range_succ_eq_map]
    simp [Except.map, Function.comp_def, Nat.add_assoc, Nat.add_comm 1]

/-- Reading a range that starts in memory and leaves it raises MemoryOutOfBounds(0x1000). -/
theorem readRange_error (m : Memory) {a n : Nat} (ha : a ≤ memSize) (h : memSize < a + n) :
    readRange m a n = .error (.memoryOutOfBounds memSize) := by
  induction n generalizing a with
  | zero => omega
  | succ n ih =>
    by_cases hlt : a < memSize
    · rw [readRange, readByte_ok m hlt]
      simp only
      rw [ih (by omega) (by omega)]
      rfl
    · have : a = memSize := by omega
      rw [readRange, readByte_error m (by omega), this]

theorem writeRange_ok (m : Memory) {a : Nat} {bs : List Byte} (h : a + bs.length ≤ memSize) :
    writeRange m a bs = .ok (m.writeAll a bs) := by
  induction bs generalizing m a with
  | nil => rfl
  | cons b bs ih =>
    simp only [List.length_cons] at h
    simp only [writeRange, writeByte, if_pos (show a < memSize by omega), Memory.writeAll]
    exact ih _ (by omega)

theorem writeRange_error (m : Memory) {a : Nat} {bs : List Byte} (ha : a ≤ memSize)
    (h : memSize < a + bs.length) : writeRange m a bs = .error (.memoryOutOfBounds memSize) := by
  induction bs generalizing m a with
  | nil => simp only [List.length_nil] at h; omega
  | cons b bs ih =>
    simp only [List.length_cons] at h
    by_cases hlt : a < memSize
    · simp only [writeRange, writeByte, if_pos hlt]
      exact ih _ (by omega) (by omega)
    · have : a = memSize := by omega
      simp [writeRange, writeByte, this]

/-- A range written from an address in memory leaves memory canonical whenever it succeeds. -/
theorem writeRange_wf {m m' : Memory} {a : Nat} {bs : List Byte} (hm : m.wf = true)
    (ha : a ≤ memSize) (h : writeRange m a bs = .ok m') : m'.wf = true := by
  by_cases hin : a + bs.length ≤ memSize
  · rw [writeRange_ok m hin] at h
    injection h with h
    subst h
    exact Memory.wf_writeAll hm hin
  · rw [writeRange_error m ha (by omega)] at h
    cases h

theorem loadBytes_ok {m m' : Memory} {offset : Nat} {bytes : List Byte} (hm : m.wf = true)
    (h : loadBytes m offset bytes = .ok m') :
    m'.wf = true ∧ ∀ c, m'.read c =
      if offset ≤ c ∧ c < offset + bytes.length then bytes.getD (c - offset) 0 else m.read c := by
  unfold loadBytes at h
  split at h
  · next hin =>
    injection h with h
    subst h
    exact ⟨Memory.wf_writeAll hm hin, Memory.read_writeAll hm hin⟩
  · cases h

/-! ### Memory at reset -/

theorem zeroedMemory_wf : zeroedMemory.wf = true :=
  Memory.wf_writeAll rfl (by decide)

theorem getD_replicate_zero (n k : Nat) : (List.replicate n (0 : Byte)).getD k 0 = 0 := by
  by_cases h : k < n <;> simp [List.getD, h]

/-- Memory before the loads of Reset reads 0x00 everywhere. -/
theorem zeroedMemory_read (c : Nat) : zeroedMemory.read c = 0x00 := by
  have h := Memory.read_writeAll (m := []) rfl (a := defaultConfig.fontBase.toNat)
    (bs := List.replicate defaultConfig.fontData.length 0x00) (by decide) c
  have hb : defaultConfig.fontBase.toNat = 0 := rfl
  have hl : defaultConfig.fontData.length = 80 := rfl
  rw [zeroedMemory, h]
  rw [List.length_replicate, hb]
  split
  · exact getD_replicate_zero _ _
  · next hc =>
    rw [hl] at hc
    simp only [Memory.read, Memory.unlisted, hb]
    rw [List.getD_eq_default _ _ (by rw [hl]; omega)]
    simp

/-- The memory Reset leaves is canonical. -/
theorem resetMemory_wf {c : Config} {rom : List Byte} {m : Memory} (h : resetMemory c rom = .ok m) :
    m.wf = true := by
  unfold resetMemory at h
  split at h
  · cases h
  · next m1 h1 => exact (loadBytes_ok (loadBytes_ok zeroedMemory_wf h1).1 h).1

end Sys2Proof.Machine
end

