-- ==== Sys2Proof/Laws/Ops.lean ====
section
/-! SUPPORT. One lemma for each shared operation that says everything it can do. -/

namespace Sys2Proof.Machine

/-! ### Ending a step -/

@[simp] theorem finish_ok (s t : State) : finish s (.ok t) = .next t := rfl

@[simp] theorem finish_error (s : State) (f : Fault) : finish s (.error f) = .next (s.raise f) := rfl

/-- A finished step is the work's result, or the fault raised on the state at its start. -/
theorem finish_cases {s t : State} {r : Except Fault State} (h : finish s r = .next t) :
    r = .ok t ∨ ∃ f, r = .error f ∧ t = s.raise f := by
  cases r with
  | ok u => exact .inl (by injection h with h; rw [h])
  | error f => exact .inr ⟨f, rfl, by injection h with h; exact h.symm⟩

@[simp] theorem map_ok {α β : Type} (g : α → β) (a : α) :
    (Except.ok a : Except Fault α).map g = .ok (g a) := rfl

@[simp] theorem map_error {α β : Type} (g : α → β) (f : Fault) :
    (Except.error f : Except Fault α).map g = .error f := rfl

/-- A mapped result is the map of a result, or the same fault. -/
theorem map_cases {α β : Type} {g : α → β} {r : Except Fault α} {b : β} (h : r.map g = .ok b) :
    ∃ a, r = .ok a ∧ g a = b := by
  cases r with
  | ok a => exact ⟨a, rfl, by injection h⟩
  | error f => cases h

theorem map_error_cases {α β : Type} {g : α → β} {r : Except Fault α} {f : Fault}
    (h : r.map g = .error f) : r = .error f := by
  cases r with
  | ok a => cases h
  | error e => injection h with h; rw [h]

/-! ### The stack -/

theorem State.push_ok {s : State} (a : Addr) (h : s.stack.length < stackDepth) :
    s.push a = .ok { s with stack := s.stack ++ [a] } := by
  simp [State.push, h]

theorem State.push_error {s : State} (a : Addr) (h : stackDepth ≤ s.stack.length) :
    s.push a = .error .stackOverflow := by
  simp [State.push, Nat.not_lt.mpr h]

theorem State.popToPc_ok {s : State} {below : List Addr} {a : Addr} (h : s.stack = below ++ [a]) :
    s.popToPc = .ok { s with stack := below, pc := a } := by
  simp [State.popToPc, h]

theorem State.popToPc_error {s : State} (h : s.stack = []) :
    s.popToPc = .error .stackUnderflow := by
  simp [State.popToPc, h]

/-! ### Operand forms -/

theorem keyIndex_ok {b : Byte} (h : b.toNat < 16) : keyIndex b = .ok ⟨b.toNat, h⟩ := by
  simp [keyIndex, h]

theorem keyIndex_error {b : Byte} (h : 16 ≤ b.toNat) : keyIndex b = .error (.invalidKeyIndex b) := by
  simp [keyIndex, Nat.not_lt.mpr h]

theorem State.glyphAddr_ok {s : State} {b : Byte} (h : b.toNat ≤ 15) :
    s.glyphAddr b = .ok (BitVec.ofNat 12 (s.config.fontBase.toNat + 5 * b.toNat)) := by
  simp [State.glyphAddr, h]

theorem State.glyphAddr_error {s : State} {b : Byte} (h : 15 < b.toNat) :
    s.glyphAddr b = .error (.invalidFontDigit b) := by
  simp [State.glyphAddr, Nat.not_le.mpr h]

@[simp] theorem State.regsUpTo_length (s : State) (x : Reg) : (s.regsUpTo x).length = x.val + 1 := by
  simp only [State.regsUpTo, List.length_take, Vector.length_toList]
  omega

/-- The k-th byte Fx55 stores is V[k]. -/
theorem State.regsUpTo_getD (s : State) (x r : Reg) (h : r ≤ x) :
    (s.regsUpTo x).getD r.val 0 = s.getV r := by
  have hr : r.val < x.val + 1 := Nat.lt_succ_of_le h
  simp [State.regsUpTo, State.getV_eq_getElem, List.getD, hr]

/-- Writing bytes to consecutive registers: each register in the range gets its byte. -/
theorem setRegsFrom_get (v : Vector Byte 16) (i : Nat) (bs : List Byte) (r : Nat) (hr : r < 16) :
    (setRegsFrom v i bs)[r] = if i ≤ r ∧ r < i + bs.length then bs.getD (r - i) 0 else v[r] := by
  induction bs generalizing v i with
  | nil => simp [setRegsFrom]
  | cons b bs ih =>
    simp only [setRegsFrom, ih, List.length_cons]
    by_cases hri : r = i
    · subst hri
      simp
    · by_cases hin : i + 1 ≤ r ∧ r < i + 1 + bs.length
      · have e : r - i = (r - (i + 1)) + 1 := by omega
        rw [if_pos hin, if_pos (by omega), e, List.getD_cons_succ]
      · rw [if_neg hin, if_neg (by omega), Vector.getElem_setIfInBounds_ne (by omega) (by omega)]

/-! ### Fetching -/

/-- Below the last address the fetch gives the two bytes at pc, the first one high. -/
theorem State.fetchWord_ok {s : State} (h : s.pc ≠ 0xFFF) :
    s.fetchWord = .ok (wordOfBytes (s.mem.read s.pc.toNat) (s.mem.read (s.pc.toNat + 1))) := by
  have h1 : s.pc.toNat + 1 < memSize := by
    have := s.pc.isLt
    have hne : s.pc.toNat ≠ 0xFFF := fun e => h (BitVec.eq_of_toNat_eq e)
    simp only [memSize]
    omega
  unfold State.fetchWord
  rw [readByte_ok _ (by omega), readByte_ok _ h1]
  rfl

/-- At the last address the fetch raises MemoryOutOfBounds(0x1000). -/
theorem State.fetchWord_error {s : State} (h : s.pc = 0xFFF) :
    s.fetchWord = .error (.memoryOutOfBounds 0x1000) := by
  unfold State.fetchWord
  rw [h, readByte_ok _ (by decide), readByte_error _ (by decide)]
  rfl

end Sys2Proof.Machine
end

