-- ==== Sys2Proof/Laws/PerInstr.lean ====
section
/-! SUPPORT. Statements for every instruction, proved constructor by constructor: the fixed bits of an
encoded instruction are those of its row of spec/opcode_table.json (columns match and mask). -/

namespace Sys2Proof.Laws.OpcodeMatch

/-- Under its row's mask, the word of an instruction is its row's match. -/
def Statement (i : Instr) : Prop := encode i &&& opcodeMask i = opcodeMatch i

/-- A word of format NNN under its mask. -/
theorem of_nnn (t : Nibble) (nnn : Addr) :
    (t ++ nnn : OpWord) &&& (0xF#4 ++ 0x000#12) = t ++ 0x000#12 := by
  rw [BitVec.and_append]
  congr 1
  · exact BitVec.and_allOnes
  · exact BitVec.and_zero

/-- A word of format XKK under its mask. -/
theorem of_xkk (t x : Nibble) (kk : Byte) :
    (t ++ x ++ kk : OpWord) &&& (0xF#4 ++ 0x0#4 ++ 0x00#8) = t ++ 0x0#4 ++ 0x00#8 := by
  rw [BitVec.and_append, BitVec.and_append]
  congr 1
  · congr 1
    · exact BitVec.and_allOnes
    · exact BitVec.and_zero
  · exact BitVec.and_zero

/-- A word of format X under its mask. -/
theorem of_x (t x : Nibble) (kk : Byte) :
    (t ++ x ++ kk : OpWord) &&& (0xF#4 ++ 0x0#4 ++ 0xFF#8) = t ++ 0x0#4 ++ kk := by
  rw [BitVec.and_append, BitVec.and_append]
  congr 1
  · congr 1
    · exact BitVec.and_allOnes
    · exact BitVec.and_zero
  · exact BitVec.and_allOnes

/-- A word of format XY under its mask. -/
theorem of_xy (t x y f : Nibble) :
    (t ++ x ++ y ++ f : OpWord) &&& (0xF#4 ++ 0x0#4 ++ 0x0#4 ++ 0xF#4) =
      t ++ 0x0#4 ++ 0x0#4 ++ f := by
  rw [BitVec.and_append, BitVec.and_append, BitVec.and_append]
  congr 1
  · congr 1
    · congr 1
      · exact BitVec.and_allOnes
      · exact BitVec.and_zero
    · exact BitVec.and_zero
  · exact BitVec.and_allOnes

/-- A word of format XYN under its mask. -/
theorem of_xyn (t x y n : Nibble) :
    (t ++ x ++ y ++ n : OpWord) &&& (0xF#4 ++ 0x0#4 ++ 0x0#4 ++ 0x0#4) =
      t ++ 0x0#4 ++ 0x0#4 ++ 0x0#4 := by
  rw [BitVec.and_append, BitVec.and_append, BitVec.and_append]
  congr 1
  · congr 1
    · congr 1
      · exact BitVec.and_allOnes
      · exact BitVec.and_zero
    · exact BitVec.and_zero
  · exact BitVec.and_zero

theorem cls : Statement (.cls) := by
  unfold Statement
  decide

theorem ret : Statement (.ret) := by
  unfold Statement
  decide

theorem jp (nnn : Addr) : Statement (.jp nnn) := of_nnn _ nnn

theorem call (nnn : Addr) : Statement (.call nnn) := of_nnn _ nnn

theorem seImm (x : Reg) (kk : Byte) : Statement (.seImm x kk) := of_xkk _ x.bits kk

theorem sneImm (x : Reg) (kk : Byte) : Statement (.sneImm x kk) := of_xkk _ x.bits kk

theorem seReg (x : Reg) (y : Reg) : Statement (.seReg x y) := of_xy _ x.bits y.bits _

theorem ldImm (x : Reg) (kk : Byte) : Statement (.ldImm x kk) := of_xkk _ x.bits kk

theorem addImm (x : Reg) (kk : Byte) : Statement (.addImm x kk) := of_xkk _ x.bits kk

theorem ldReg (x : Reg) (y : Reg) : Statement (.ldReg x y) := of_xy _ x.bits y.bits _

theorem orReg (x : Reg) (y : Reg) : Statement (.orReg x y) := of_xy _ x.bits y.bits _

theorem andReg (x : Reg) (y : Reg) : Statement (.andReg x y) := of_xy _ x.bits y.bits _

theorem xorReg (x : Reg) (y : Reg) : Statement (.xorReg x y) := of_xy _ x.bits y.bits _

theorem addReg (x : Reg) (y : Reg) : Statement (.addReg x y) := of_xy _ x.bits y.bits _

theorem subReg (x : Reg) (y : Reg) : Statement (.subReg x y) := of_xy _ x.bits y.bits _

theorem shr (x : Reg) (y : Reg) : Statement (.shr x y) := of_xy _ x.bits y.bits _

theorem subnReg (x : Reg) (y : Reg) : Statement (.subnReg x y) := of_xy _ x.bits y.bits _

theorem shl (x : Reg) (y : Reg) : Statement (.shl x y) := of_xy _ x.bits y.bits _

theorem sneReg (x : Reg) (y : Reg) : Statement (.sneReg x y) := of_xy _ x.bits y.bits _

theorem ldI (nnn : Addr) : Statement (.ldI nnn) := of_nnn _ nnn

theorem jpV0 (nnn : Addr) : Statement (.jpV0 nnn) := of_nnn _ nnn

theorem rnd (x : Reg) (kk : Byte) : Statement (.rnd x kk) := of_xkk _ x.bits kk

theorem drw (x : Reg) (y : Reg) (n : Nibble) : Statement (.drw x y n) := of_xyn _ x.bits y.bits n

theorem skp (x : Reg) : Statement (.skp x) := of_x _ x.bits _

theorem sknp (x : Reg) : Statement (.sknp x) := of_x _ x.bits _

theorem ldVxDt (x : Reg) : Statement (.ldVxDt x) := of_x _ x.bits _

theorem ldVxK (x : Reg) : Statement (.ldVxK x) := of_x _ x.bits _

theorem ldDtVx (x : Reg) : Statement (.ldDtVx x) := of_x _ x.bits _

theorem ldStVx (x : Reg) : Statement (.ldStVx x) := of_x _ x.bits _

theorem addIVx (x : Reg) : Statement (.addIVx x) := of_x _ x.bits _

theorem ldFVx (x : Reg) : Statement (.ldFVx x) := of_x _ x.bits _

theorem ldBVx (x : Reg) : Statement (.ldBVx x) := of_x _ x.bits _

theorem ldMemVx (x : Reg) : Statement (.ldMemVx x) := of_x _ x.bits _

theorem ldVxMem (x : Reg) : Statement (.ldVxMem x) := of_x _ x.bits _

theorem unknown (w : OpWord) : Statement (.unknown w) := BitVec.and_zero

end Sys2Proof.Laws.OpcodeMatch
end

