-- ==== Sys2Proof/Laws/Step.lean ====
section
/-! SUPPORT. What a Step of the CPU and a step of the machine can do, and the closed form of each
meaning that can raise a fault. -/

namespace Sys2Proof.Machine

/-! ### The step -/

theorem cpuStep_running {s : State} (h : s.mode = .running) :
    cpuStep s = match s.fetchWord with
      | .error f => .next (s.raise f)
      | .ok w    => exec (decode s.config w) s := by
  cases s
  cases h
  rfl

theorem cpuStep_blocked {s : State} {x : Reg} (h : s.mode = .blocked x) :
    cpuStep s = match s.latch with
      | some k => .next (s.completeWait x k)
      | none   => .next s := by
  cases s
  cases h
  rfl

theorem cpuStep_stopped {s : State} {f : FaultRecord} (h : s.mode = .faulted f) :
    cpuStep s = .next s := by
  unfold cpuStep
  rw [h]

/-- Everything a Step of the CPU can answer. -/
theorem cpuStep_cases {s t : State} (h : cpuStep s = .next t) :
    (∃ f, s.mode = .faulted f ∧ t = s) ∨
    (∃ x, s.mode = .blocked x ∧ s.latch = none ∧ t = s) ∨
    (∃ x k, s.mode = .blocked x ∧ s.latch = some k ∧ t = s.completeWait x k) ∨
    (∃ f, s.mode = .running ∧ s.fetchWord = .error f ∧ t = s.raise f) ∨
    (∃ w, s.mode = .running ∧ s.fetchWord = .ok w ∧ exec (decode s.config w) s = .next t) := by
  cases hm : s.mode with
  | faulted f =>
    rw [cpuStep_stopped hm] at h
    injection h with h
    exact .inl ⟨f, rfl, h.symm⟩
  | blocked x =>
    rw [cpuStep_blocked hm] at h
    cases hl : s.latch with
    | none =>
      rw [hl] at h
      injection h with h
      exact .inr (.inl ⟨x, rfl, rfl, h.symm⟩)
    | some k =>
      rw [hl] at h
      injection h with h
      exact .inr (.inr (.inl ⟨x, k, rfl, rfl, h.symm⟩))
  | running =>
    rw [cpuStep_running hm] at h
    cases hf : s.fetchWord with
    | error f =>
      rw [hf] at h
      injection h with h
      exact .inr (.inr (.inr (.inl ⟨f, rfl, rfl, h.symm⟩)))
    | ok w =>
      rw [hf] at h
      exact .inr (.inr (.inr (.inr ⟨w, rfl, rfl, h⟩)))

/-- A pending event is the next step. -/
theorem step_pending {s : State} {e : Event} {rest : List Event} (h : s.schedule.pending = e :: rest) :
    step s = event e { s with schedule := { s.schedule with pending := rest } } := by
  simp only [step, Schedule.next, h]

/-- With none pending, a cycle starts over. -/
theorem step_cycle {s : State} {e : Event} {rest : List Event} (h : s.schedule.pending = [])
    (hc : s.schedule.course = .cycle e rest) :
    step s = event e { s with schedule := { s.schedule with pending := rest } } := by
  simp only [step, Schedule.next, h, hc]

/-- With none pending, a free course takes the next free event. -/
theorem step_free {s : State} (h : s.schedule.pending = []) (hc : s.schedule.course = .free) :
    step s = event (.ofClockEvent (Config.hostEvent s.schedule.delivered))
      { s with schedule := { s.schedule with delivered := s.schedule.delivered + 1 } } := by
  simp only [step, Schedule.next, h, hc]

/-- A host that issues Steps for ever: the step is the CPU's. -/
theorem step_steps {s : State} (h : s.schedule.pending = [])
    (hc : s.schedule.course = .cycle .step []) : step s = cpuStep s := by
  rw [step_cycle h hc, ← h]
  rfl

/-- A Tick outside Faulted lowers both timers. -/
theorem State.tick_eq {s : State} (h : ∀ f, s.mode ≠ .faulted f) :
    s.tick = { s with dt := countDown s.dt, st := countDown s.st } := by
  unfold State.tick
  cases hm : s.mode with
  | running => rfl
  | blocked x => rfl
  | faulted f => exact absurd hm (h f)

theorem countDown_toNat (b : Byte) : (countDown b).toNat = b.toNat - 1 := by
  unfold countDown
  split
  · next h => simp [h]
  · next h =>
    have hne : b.toNat ≠ 0 := fun e => h (BitVec.eq_of_toNat_eq e)
    have hlt := b.isLt
    simp [BitVec.toNat_sub]
    omega

/-! ### The meanings that can raise a fault -/

theorem execLdBVx_ok (x : Reg) {s : State} (h : s.index.toNat + 2 < memSize) :
    execLdBVx x s =
      .next (s.advance.setMem (s.mem.writeAll s.index.toNat (bcdDigits (s.getV x)))) := by
  unfold execLdBVx
  rw [State.effAddr_zero, writeRange_ok _ (by simp only [bcdDigits, List.length_cons, List.length_nil]; omega)]
  rfl

theorem execLdMemVx_ok (x : Reg) {s : State} (h : s.index.toNat + x.val < memSize) :
    execLdMemVx x s =
      .next ((s.advance.setIndex (s.indexAfterBlock x)).setMem
        (s.mem.writeAll s.index.toNat (s.regsUpTo x))) := by
  unfold execLdMemVx
  rw [State.effAddr_zero, writeRange_ok _ (by rw [State.regsUpTo_length]; omega)]
  rfl

theorem execLdVxMem_ok (x : Reg) {s : State} (h : s.index.toNat + x.val < memSize) :
    execLdVxMem x s =
      .next ((s.advance.setIndex (s.indexAfterBlock x)).setRegs
        (setRegsFrom s.v 0 ((List.range (x.val + 1)).map fun k => s.mem.read (s.index.toNat + k)))) := by
  unfold execLdVxMem
  rw [State.effAddr_zero, readRange_ok _ (by omega)]
  rfl

theorem execDrw_ok (x y : Reg) (n : Nibble) {s : State} (h : s.index.toNat + n.toNat ≤ memSize) :
    execDrw x y n s =
      let drawn := drawSprite s.fb (s.getV x) (s.getV y)
        ((List.range n.toNat).map fun k => s.mem.read (s.index.toNat + k))
      .next ((s.advance.setFb drawn.1).setV regF (flagByte drawn.2)) := by
  unfold execDrw
  rw [State.effAddr_zero, readRange_ok _ h]
  rfl

/-- Every one of the four raises MemoryOutOfBounds(0x1000), and nothing else, past the last
address. -/
theorem memory_meanings_error {s : State} :
    (∀ x, memSize ≤ s.index.toNat + 2 → execLdBVx x s = .next (s.raise (.memoryOutOfBounds memSize))) ∧
    (∀ x : Reg, memSize ≤ s.index.toNat + x.val →
      execLdMemVx x s = .next (s.raise (.memoryOutOfBounds memSize)) ∧
      execLdVxMem x s = .next (s.raise (.memoryOutOfBounds memSize))) ∧
    (∀ x y (n : Nibble), memSize < s.index.toNat + n.toNat →
      execDrw x y n s = .next (s.raise (.memoryOutOfBounds memSize))) := by
  have hi : s.index.toNat ≤ memSize := Nat.le_of_lt s.index.isLt
  refine ⟨fun x h => ?_, fun x h => ⟨?_, ?_⟩, fun x y n h => ?_⟩
  · unfold execLdBVx
    rw [State.effAddr_zero, writeRange_error _ hi (by simp only [bcdDigits, List.length_cons, List.length_nil]; omega)]
    rfl
  · unfold execLdMemVx
    rw [State.effAddr_zero, writeRange_error _ hi (by rw [State.regsUpTo_length]; omega)]
    rfl
  · unfold execLdVxMem
    rw [State.effAddr_zero, readRange_error _ hi (by omega)]
    rfl
  · unfold execDrw
    rw [State.effAddr_zero, readRange_error _ hi h]
    rfl

end Sys2Proof.Machine
end

