-- ==== Sys2Proof/Tests/Slice0.lean ====
section
/-! SUPPORT. The model's own tests. Every expected value is from the spec: the encodings of
30_encoding.md, the vectors of 95_test_vectors.md (named T<n> and W<n>) and the examples of the
instruction rules. At the end, for every obligation with hypotheses, states that meet them. -/

namespace Sys2Proof.Tests

open Sys2Proof.Machine Sys2Proof.Statements

/-! ### Helpers -/

/-- The next state of an outcome. -/
def nextOf (o : Host.Outcome State Fault Refusal) : Option State :=
  match o with
  | .next t    => some t
  | .fault _   => none
  | .refused _ => none

/-- What the next step leaves, with word `w` stored where it fetches. -/
def run (w : Nat) (s : State) : Option State := nextOf (step (s.withFetchWord 16 w))

/-- The reset state with some registers set. -/
def regs (l : List (Reg × Byte)) : State := l.foldl (fun s p => s.setV p.1 p.2) State.reset

/-- The reset state's memory with bytes stored from an address on. -/
def memWith (a : Nat) (bytes : List Byte) : Memory := Memory.writeAll [] a bytes

/-- The bytes at `n` addresses from `a` on. -/
def bytesAt (s : State) (a n : Nat) : List Byte := (List.range n).map fun k => s.mem.read (a + k)

/-- The pixels (column, row) of one row that are on. -/
def rowOn (fb : Framebuffer) (y : Fin 32) : List (Nat × Nat) :=
  ((List.finRange 64).filter fun x => fb.pixel x y).map fun x => (x.val, y.val)

/-- A schedule with events pending, and Steps for ever after them. -/
def pending (l : List Event) : Schedule := { State.reset.schedule with pending := l }

/-- A schedule that repeats one event for ever. -/
def onlyEvent (e : Event) : Schedule := { State.reset.schedule with course := .cycle e [] }

/-- A schedule that leaves every event open. -/
def freeCourse : Schedule := { State.reset.schedule with course := .free }

/-- A keypad with the listed keys down. -/
def keys (l : List Key) : Keypad := l.foldl (fun k i => k.set i.val true i.isLt) State.reset.key

/-- The default configuration with the alternative values of 00_scope.md R8. -/
def altConfig : Config :=
  { defaultConfig with
    shiftSource := .vy, loadStoreIMode := .advance, zeroFamilyMatch := .lowByte,
    strictLowNibble := false }

/-! ### WellFormed: the one check refuses a known word, and nothing else is refused -/

theorem test_unknown_of_known_word_is_ill_formed :
    wellFormed defaultConfig (.unknown 0x00E0) = false ∧
    wellFormed defaultConfig (.unknown 0x1234) = false ∧
    wellFormed defaultConfig (.unknown 0x5120) = false ∧
    wellFormed defaultConfig (.unknown 0x8AB7) = false ∧
    wellFormed defaultConfig (.unknown 0xE19E) = false ∧
    wellFormed defaultConfig (.unknown 0xFF65) = false := by decide

theorem test_unknown_word_is_well_formed :
    wellFormed defaultConfig (.unknown 0x0000) = true ∧
    wellFormed defaultConfig (.unknown 0x5121) = true ∧
    wellFormed altConfig (.unknown 0x5121) = false ∧
    wellFormed defaultConfig (.unknown 0x01E0) = true ∧
    wellFormed altConfig (.unknown 0x01E0) = false ∧
    wellFormed defaultConfig (.drw 0xF 0xF 0xF) = true := by decide

/-! ### Decoding: words written out bit by bit from the formats of 30_encoding.md R72, R75 -/

theorem test_decode_fixed :
    decode defaultConfig 0b0000_0000_1110_0000#16 = .cls ∧
    decode defaultConfig 0b0000_0000_1110_1110#16 = .ret := by decide

theorem test_decode_nnn :
    decode defaultConfig 0b0001_0010_0011_0100#16 = .jp 0x234 ∧
    decode defaultConfig 0b0010_0010_0011_0100#16 = .call 0x234 ∧
    decode defaultConfig 0b1010_0010_0011_0100#16 = .ldI 0x234 ∧
    decode defaultConfig 0b1011_0001_0010_0011#16 = .jpV0 0x123 := by decide

theorem test_decode_xkk :
    decode defaultConfig 0b0011_1010_0100_0010#16 = .seImm 0xA 0x42 ∧
    decode defaultConfig 0b0100_1010_0100_0010#16 = .sneImm 0xA 0x42 ∧
    decode defaultConfig 0b0110_0000_0000_0101#16 = .ldImm 0 0x05 ∧
    decode defaultConfig 0b0111_0000_0000_0011#16 = .addImm 0 0x03 ∧
    decode defaultConfig 0b1100_0000_1111_1111#16 = .rnd 0 0xFF := by decide

theorem test_decode_xy_skips :
    decode defaultConfig 0b0101_0001_0010_0000#16 = .seReg 1 2 ∧
    decode defaultConfig 0b1001_1010_1011_0000#16 = .sneReg 0xA 0xB := by decide

theorem test_decode_xy_logic :
    decode defaultConfig 0b1000_0011_1111_0000#16 = .ldReg 3 0xF ∧
    decode defaultConfig 0b1000_0001_0010_0001#16 = .orReg 1 2 ∧
    decode defaultConfig 0b1000_0001_0010_0010#16 = .andReg 1 2 ∧
    decode defaultConfig 0b1000_0001_0010_0011#16 = .xorReg 1 2 := by decide

theorem test_decode_xy_arithmetic :
    decode defaultConfig 0b1000_0001_0010_0100#16 = .addReg 1 2 ∧
    decode defaultConfig 0b1000_0001_0010_0101#16 = .subReg 1 2 ∧
    decode defaultConfig 0b1000_0001_0010_0110#16 = .shr 1 2 ∧
    decode defaultConfig 0b1000_0001_0010_0111#16 = .subnReg 1 2 ∧
    decode defaultConfig 0b1000_1010_1011_1110#16 = .shl 0xA 0xB := by decide

theorem test_decode_xyn :
    decode defaultConfig 0b1101_0001_0010_0000#16 = .drw 1 2 0 ∧
    decode defaultConfig 0b1101_1110_0011_1101#16 = .drw 0xE 3 0xD := by decide

theorem test_decode_keys :
    decode defaultConfig 0b1110_0001_1001_1110#16 = .skp 1 ∧
    decode defaultConfig 0b1110_0001_1010_0001#16 = .sknp 1 := by decide

theorem test_decode_timers :
    decode defaultConfig 0b1111_0001_0000_0111#16 = .ldVxDt 1 ∧
    decode defaultConfig 0b1111_0001_0000_1010#16 = .ldVxK 1 ∧
    decode defaultConfig 0b1111_0001_0001_0101#16 = .ldDtVx 1 ∧
    decode defaultConfig 0b1111_0001_0001_1000#16 = .ldStVx 1 := by decide

theorem test_decode_index :
    decode defaultConfig 0b1111_0001_0001_1110#16 = .addIVx 1 ∧
    decode defaultConfig 0b1111_0001_0010_1001#16 = .ldFVx 1 ∧
    decode defaultConfig 0b1111_0001_0011_0011#16 = .ldBVx 1 ∧
    decode defaultConfig 0b1111_0001_0101_0101#16 = .ldMemVx 1 ∧
    decode defaultConfig 0b1111_1111_0110_0101#16 = .ldVxMem 0xF := by decide

/-- T1, T4 to T11. -/
theorem test_decode_unknown :
    decode defaultConfig 0x0000 = .unknown 0x0000 ∧ decode defaultConfig 0x01E0 = .unknown 0x01E0 ∧
    decode defaultConfig 0x0FEE = .unknown 0x0FEE ∧ decode defaultConfig 0x0123 = .unknown 0x0123 ∧
    decode defaultConfig 0x5121 = .unknown 0x5121 ∧ decode defaultConfig 0x9ABF = .unknown 0x9ABF ∧
    decode defaultConfig 0x8AB8 = .unknown 0x8AB8 ∧ decode defaultConfig 0x8ABD = .unknown 0x8ABD ∧
    decode defaultConfig 0x8ABF = .unknown 0x8ABF ∧ decode defaultConfig 0xE19F = .unknown 0xE19F ∧
    decode defaultConfig 0xF10B = .unknown 0xF10B ∧ decode defaultConfig 0xFFFF = .unknown 0xFFFF := by
  decide

/-- T4, T5, T7, T8 under the alternative values. -/
theorem test_decode_alternatives :
    decode altConfig 0x01E0 = .cls ∧ decode altConfig 0x0FEE = .ret ∧
    decode altConfig 0x5121 = .seReg 1 2 ∧ decode altConfig 0x9ABF = .sneReg 0xA 0xB ∧
    decode altConfig 0x0123 = .unknown 0x0123 := by decide

/-- Fewer than two bytes are no instruction; the bytes after the first two are given back. -/
theorem test_decode_bytes :
    decodeBytes defaultConfig [0x60] = .error .truncated ∧
    decodeBytes defaultConfig [0x60, 0x05, 0x70, 0x03] = .ok (.ldImm 0 0x05, [0x70, 0x03]) := by decide

/-- The opcode table's word of JP, with its operand bits zero, and a whole word. -/
theorem test_decode_table_word :
    decodeTableWord 16 0x1000 = some (.jp 0) ∧ decodeTableWord 16 0xD015 = some (.drw 0 1 5) := by decide

/-! ### The step cycle -/

/-- T13, T14, T16. -/
theorem test_step_fetches_at_pc :
    (run 0x6005 State.reset).map (fun t => (t.getV 0, t.pc)) = some (0x05, 0x202) ∧
    (run 0x6005 { State.reset with pc := 0xFFE }).map (fun t => (t.getV 0, t.pc)) = some (0x05, 0x000) ∧
    (run 0x6107 { State.reset with pc := 0x201 }).map (fun t => (t.getV 1, t.pc)) =
      some (0x07, 0x203) := by decide

/-- T15. -/
theorem test_fetch_at_last_address_faults :
    (nextOf (step { State.reset with pc := 0xFFF })).map (fun t => (t.mode, t.pc)) =
      some (.faulted ⟨.memoryOutOfBounds 0x1000, 0xFFF⟩, 0xFFF) := by decide

/-! ### Control flow -/

/-- T19, and the example of R100. -/
theorem test_ret_pops_the_last_entry :
    (run 0x00EE { State.reset with stack := [0x206, 0x30A] }).map (fun t => (t.pc, t.stack)) =
      some (0x30A, [0x206]) := by decide

/-- T18. -/
theorem test_ret_underflows :
    (run 0x00EE State.reset).map (fun t => (t.mode, t.pc, t.stack)) =
      some (.faulted ⟨.stackUnderflow, 0x200⟩, 0x200, []) := by decide

/-- T20, T21. -/
theorem test_jp :
    (run 0x1FFF State.reset).map (·.pc) = some 0xFFF ∧
    (run 0x1200 State.reset).map (·.pc) = some 0x200 := by decide

/-- T22, W6. -/
theorem test_call_pushes_the_next_address :
    (run 0x2300 { State.reset with pc := 0xFFE }).map (fun t => (t.pc, t.stack)) =
      some (0x300, [0x000]) ∧
    (run 0x2300 { State.reset with pc := 0x204 }).map (fun t => (t.pc, t.stack)) =
      some (0x300, [0x206]) := by decide

/-- T23, T24. -/
theorem test_call_depth :
    (run 0x2300 { State.reset with stack := List.replicate 15 0x111 }).map
      (fun t => (t.stack.length, t.stack.getLast?, t.pc)) = some (16, some 0x202, 0x300) ∧
    (run 0x2300 { State.reset with stack := List.replicate 16 0x111 }).map
      (fun t => (t.mode, t.pc, t.stack.length)) =
      some (.faulted ⟨.stackOverflow, 0x200⟩, 0x200, 16) := by decide

/-- T25, T26, T30. -/
theorem test_se_imm :
    (run 0x3142 (regs [(1, 0x42)])).map (·.pc) = some 0x204 ∧
    (run 0x3143 (regs [(1, 0x42)])).map (·.pc) = some 0x202 ∧
    (run 0x3000 { State.reset with pc := 0xFFE }).map (·.pc) = some 0x002 ∧
    (run 0x3F01 (regs [(0xF, 1)])).map (·.pc) = some 0x204 := by decide

/-- T27. -/
theorem test_sne_imm :
    (run 0x4142 (regs [(1, 0x42)])).map (·.pc) = some 0x202 ∧
    (run 0x4143 (regs [(1, 0x42)])).map (·.pc) = some 0x204 := by decide

/-- T28, T29. -/
theorem test_se_reg :
    (run 0x5550 (regs [(5, 9)])).map (·.pc) = some 0x204 ∧
    (run 0x5230 (regs [(2, 7), (3, 8)])).map (·.pc) = some 0x202 := by decide

/-- T28, T29. -/
theorem test_sne_reg :
    (run 0x9550 (regs [(5, 9)])).map (·.pc) = some 0x202 ∧
    (run 0x9230 (regs [(2, 7), (3, 8)])).map (·.pc) = some 0x204 := by decide

/-- T31, T32, T33. -/
theorem test_jp_v0 :
    (run 0xBFFF (regs [(0, 0xFF)])).map (·.pc) = some 0x0FE ∧
    (run 0xB500 (regs [(5, 0x10)])).map (·.pc) = some 0x500 ∧
    (run 0xB200 (regs [(0, 1)])).map (·.pc) = some 0x201 := by decide

/-! ### Register loads and the ALU -/

/-- T34. -/
theorem test_ld_imm : (run 0x6AFF State.reset).map (·.getV 0xA) = some 0xFF := by decide

/-- T36, T37. -/
theorem test_add_imm :
    (run 0x7001 (regs [(0, 0xFF), (0xF, 1)])).map (fun t => (t.getV 0, t.getV 0xF)) = some (0, 1) ∧
    (run 0x7F01 (regs [(0xF, 0xFF)])).map (·.getV 0xF) = some 0 := by decide

/-- T38. -/
theorem test_ld_reg :
    (run 0x8210 (regs [(1, 0x12)])).map (·.getV 2) = some 0x12 ∧
    (run 0x8F10 (regs [(1, 0x12)])).map (·.getV 0xF) = some 0x12 := by decide

/-- T39. -/
theorem test_or : (run 0x8121 (regs [(1, 0xF0), (2, 0x0F), (0xF, 0x77)])).map
    (fun t => (t.getV 1, t.getV 0xF)) = some (0xFF, 0x77) := by decide

/-- T40, and the example of R128. -/
theorem test_and :
    (run 0x8122 (regs [(1, 0xF0), (2, 0x0F), (0xF, 0x77)])).map
      (fun t => (t.getV 1, t.getV 0xF)) = some (0x00, 0x77) ∧
    (run 0x8122 (regs [(1, 0x3C), (2, 0x0F)])).map (·.getV 1) = some 0x0C := by decide

/-- T41. -/
theorem test_xor : (run 0x8123 (regs [(1, 0xFF), (2, 0x0F), (0xF, 0x77)])).map
    (fun t => (t.getV 1, t.getV 0xF)) = some (0xF0, 0x77) := by decide

/-- T42, and the last row but one of W1. -/
theorem test_add_carry :
    (run 0x8114 (regs [(1, 0x81)])).map (fun t => (t.getV 1, t.getV 0xF)) = some (0x02, 1) ∧
    (run 0x8124 (regs [(1, 0xFF), (2, 0xFF)])).map (fun t => (t.getV 1, t.getV 0xF)) =
      some (0xFE, 1) ∧
    (run 0x8124 (regs [(1, 0x7F), (2, 0x80)])).map (fun t => (t.getV 1, t.getV 0xF)) =
      some (0xFF, 0) := by decide

/-- T43, T44, T45. -/
theorem test_add_with_vf :
    (run 0x8F14 (regs [(0xF, 0xFF), (1, 0x01)])).map (·.getV 0xF) = some 1 ∧
    (run 0x8F14 (regs [(0xF, 0x10), (1, 0x01)])).map (·.getV 0xF) = some 0 ∧
    (run 0x81F4 (regs [(0xF, 1), (1, 0x10)])).map (fun t => (t.getV 1, t.getV 0xF)) =
      some (0x11, 0) := by decide

/-- T46, T47, T48. -/
theorem test_sub :
    (run 0x8125 (regs [(1, 0x00), (2, 0x01)])).map (fun t => (t.getV 1, t.getV 0xF)) =
      some (0xFF, 0) ∧
    (run 0x8F15 (regs [(0xF, 0x05), (1, 0x03)])).map (·.getV 0xF) = some 1 ∧
    (run 0x8115 (regs [(1, 0x42)])).map (fun t => (t.getV 1, t.getV 0xF)) = some (0x00, 1) := by decide

/-- T49, T50. -/
theorem test_subn :
    (run 0x8127 (regs [(1, 0x05), (2, 0x03)])).map (fun t => (t.getV 1, t.getV 0xF)) =
      some (0xFE, 0) ∧
    (run 0x8127 (regs [(1, 0x03), (2, 0x05)])).map (fun t => (t.getV 1, t.getV 0xF)) =
      some (0x02, 1) := by decide

/-- T51, T53. -/
theorem test_shr :
    (run 0x8106 (regs [(1, 0x01)])).map (fun t => (t.getV 1, t.getV 0xF)) = some (0x00, 1) ∧
    (run 0x8106 (regs [(1, 0x80)])).map (fun t => (t.getV 1, t.getV 0xF)) = some (0x40, 0) ∧
    (run 0x8F06 (regs [(0xF, 0x03)])).map (·.getV 0xF) = some 1 := by decide

/-- T54, T56. -/
theorem test_shl :
    (run 0x810E (regs [(1, 0x80)])).map (fun t => (t.getV 1, t.getV 0xF)) = some (0x00, 1) ∧
    (run 0x810E (regs [(1, 0x7F)])).map (fun t => (t.getV 1, t.getV 0xF)) = some (0xFE, 0) ∧
    (run 0x8F0E (regs [(0xF, 0x40)])).map (·.getV 0xF) = some 0 := by decide

/-- T52, T55. -/
theorem test_shifts_of_vy :
    (run 0x8126 { regs [(2, 0x03)] with config := altConfig }).map
      (fun t => (t.getV 1, t.getV 0xF, t.getV 2)) = some (0x01, 1, 0x03) ∧
    (run 0x812E { regs [(2, 0xC0)] with config := altConfig }).map
      (fun t => (t.getV 1, t.getV 0xF, t.getV 2)) = some (0x80, 1, 0xC0) := by decide

/-- T57, T59, and the example of R145: the result of a draw. -/
theorem test_rnd_masks_the_draw :
    (rndResult 0xA5 0 0xF0 State.reset).getV 0 = 0xA0 ∧
    (rndResult 0x3C 0xF 0xFF State.reset).getV 0xF = 0x3C ∧
    (rndResult 0xA7 3 0x0F State.reset).getV 3 = 0x07 := by decide

/-- T58: any draw masked with 0x00. -/
theorem test_rnd_of_zero_mask :
    ∃ t, execRnd 0 0x00 State.reset = .next t ∧ t.getV 0 = 0x00 ∧ t.pc = 0x202 :=
  ⟨_, rfl, by simp [rndResult], rfl⟩

/-! ### The index register and memory -/

/-- T60. -/
theorem test_ld_i :
    (run 0xA000 { State.reset with index := 0x123 }).map (·.index) = some 0x000 ∧
    (run 0xAFFF State.reset).map (·.index) = some 0xFFF := by decide

/-- T61, T62. -/
theorem test_add_i :
    (run 0xF01E { regs [(0, 0x01), (0xF, 0x55)] with index := 0xFFF }).map
      (fun t => (t.index, t.getV 0xF)) = some (0x000, 0x55) ∧
    (run 0xF01E { regs [(0, 0xFF)] with index := 0xF80 }).map (·.index) = some 0x07F := by decide

/-- T63. -/
theorem test_font_digit :
    (run 0xF029 { State.reset with index := 0x123 }).map (·.index) = some 0x000 ∧
    (run 0xF029 (regs [(0, 0x0A)])).map (·.index) = some 0x032 ∧
    (run 0xF029 (regs [(0, 0x0F)])).map (·.index) = some 0x04B := by decide

/-- T64. -/
theorem test_font_digit_faults :
    (run 0xF029 { regs [(0, 0x10)] with index := 0x123 }).map (fun t => (t.mode, t.index)) =
      some (.faulted ⟨.invalidFontDigit 0x10, 0x200⟩, 0x123) := by decide

/-- T65, T66. -/
theorem test_bcd :
    (run 0xF033 { regs [(0, 255)] with index := 0x300 }).map (bytesAt · 0x300 3) = some [2, 5, 5] ∧
    (run 0xF033 { regs [(0, 9)] with index := 0x300 }).map (bytesAt · 0x300 3) = some [0, 0, 9] ∧
    (run 0xF033 { regs [(0, 123)] with index := 0xFFD }).map (bytesAt · 0xFFD 3) =
      some [1, 2, 3] := by decide

/-- T67. -/
theorem test_bcd_faults :
    (run 0xF033 { regs [(0, 123)] with index := 0xFFE }).map
      (fun t => (t.mode, bytesAt t 0xFFE 2)) =
      some (.faulted ⟨.memoryOutOfBounds 0x1000, 0x200⟩, [0, 0]) := by decide

/-- T68, T69. -/
theorem test_store_registers_at_the_top :
    (run 0xF055 { regs [(0, 0xAB)] with index := 0xFFF }).map
      (fun t => (bytesAt t 0xFFF 1, t.index)) = some ([0xAB], 0xFFF) ∧
    (run 0xF155 { regs [(0, 0xAB), (1, 0xCD)] with index := 0xFFF }).map
      (fun t => (t.mode, bytesAt t 0xFFF 1)) =
      some (.faulted ⟨.memoryOutOfBounds 0x1000, 0x200⟩, [0x00]) := by decide

/-- T70, T71, and the example of R158. -/
theorem test_store_registers :
    (run 0xF255 { regs [(0, 1), (1, 2), (2, 3)] with index := 0x300, config := altConfig }).map
      (fun t => (bytesAt t 0x300 3, t.index)) = some ([1, 2, 3], 0x303) ∧
    (run 0xF055 { regs [(0, 7)] with index := 0xFFF, config := altConfig }).map
      (fun t => (bytesAt t 0xFFF 1, t.index)) = some ([7], 0x000) ∧
    (run 0xF255 { regs [(0, 1), (1, 2), (2, 3)] with index := 0x400 }).map
      (fun t => (bytesAt t 0x400 3, t.index)) = some ([1, 2, 3], 0x400) := by decide

/-- T72, T74. -/
theorem test_load_registers :
    (run 0xFF65 { State.reset with
        index := 0x300
        mem := memWith 0x300 [0, 1, 2, 3, 4, 5, 6, 7, 8, 9, 10, 11, 12, 13, 14, 15] }).map
      (fun t => (t.v.toList, t.index)) =
      some ([0, 1, 2, 3, 4, 5, 6, 7, 8, 9, 10, 11, 12, 13, 14, 15], 0x300) ∧
    (run 0xF065 State.reset).map (·.getV 0) = some 0xF0 := by decide

/-- T73. -/
theorem test_load_registers_faults :
    (run 0xFF65 { regs [(0, 0x77)] with index := 0xFF8 }).map (fun t => (t.mode, t.getV 0)) =
      some (.faulted ⟨.memoryOutOfBounds 0x1000, 0x200⟩, 0x77) := by decide

/-! ### Display -/

/-- The reset state with bytes at 0x300, I there, and some registers set. -/
def spriteAt300 (bytes : List Byte) (l : List (Reg × Byte)) : State :=
  { regs l with index := 0x300, mem := memWith 0x300 bytes }

/-- What a step leaves in one row of the screen and in VF. -/
def drawn (w : Nat) (y : Fin 32) (s : State) : Option (List (Nat × Nat) × Byte) :=
  (run w s).map fun t => (rowOn t.fb y, t.getV 0xF)

/-- T75. -/
theorem test_cls :
    (run 0x00E0 { regs [(0xF, 1)] with fb := (clearFb.toggle 0 0).toggle 63 31 }).map
      (fun t => (rowOn t.fb 0, rowOn t.fb 31, t.getV 0xF)) = some ([], [], 1) := by decide

/-- T77, T78, T79, T80, T83, T84, and a row of program P3's first draw: bit order, a collision on one
pixel of two, wrap on both axes, the old VF as a coordinate, a glyph. -/
theorem test_draw :
    drawn 0xD011 0 (spriteAt300 [0x01] []) = some ([(7, 0)], 0) ∧
    drawn 0xD011 0 { spriteAt300 [0xC0] [] with fb := clearFb.toggle 0 0 } = some ([(1, 0)], 1) ∧
    drawn 0xD011 0 (spriteAt300 [0xFF] [(0, 60)]) =
      some ([(0, 0), (1, 0), (2, 0), (3, 0), (60, 0), (61, 0), (62, 0), (63, 0)], 0) ∧
    drawn 0xD011 1 (spriteAt300 [0x80] [(0, 69), (1, 33)]) = some ([(5, 1)], 0) ∧
    drawn 0xDF11 0 (spriteAt300 [0x80] [(0xF, 8)]) = some ([(8, 0)], 0) ∧
    drawn 0xD012 31 (spriteAt300 [0x80, 0x80] [(1, 31)]) = some ([(0, 31)], 0) ∧
    drawn 0xD012 0 (spriteAt300 [0x80, 0x80] [(1, 31)]) = some ([(0, 0)], 0) ∧
    drawn 0xD015 2 { regs [(0, 62), (1, 30)] with index := 0x005 } =
      some ([(0, 2), (1, 2), (63, 2)], 0) :=
  ⟨by decide, by decide, by decide, by decide, by decide, by decide, by decide, by decide⟩

/-- T76, T81, T82: no rows, a row past the last address, and two rows that just fit. -/
theorem test_draw_at_the_top_of_memory :
    drawn 0xD120 0 { regs [(0xF, 1)] with index := 0xFFF } = some ([], 0) ∧
    (run 0xD013 { regs [(0xF, 0x22)] with index := 0xFFE }).map
      (fun t => (t.mode, rowOn t.fb 0, t.getV 0xF)) =
      some (.faulted ⟨.memoryOutOfBounds 0x1000, 0x200⟩, [], 0x22) ∧
    drawn 0xD012 1 { State.reset with index := 0xFFE, mem := memWith 0xFFE [0x80, 0x80] } =
      some ([(0, 1)], 0) := by decide

/-! ### Keypad and timers -/

/-- T85, T86, T87. -/
theorem test_skp :
    (run 0xE09E { regs [(0, 3)] with key := keys [3] }).map (·.pc) = some 0x204 ∧
    (run 0xE09E (regs [(0, 3)])).map (·.pc) = some 0x202 ∧
    (run 0xE09E (regs [(0, 0x10)])).map (fun t => (t.mode, t.pc)) =
      some (.faulted ⟨.invalidKeyIndex 0x10, 0x200⟩, 0x200) := by decide

/-- T85, T86, and the exceptions of R181. -/
theorem test_sknp :
    (run 0xE0A1 { regs [(0, 3)] with key := keys [3] }).map (·.pc) = some 0x202 ∧
    (run 0xE0A1 (regs [(0, 3)])).map (·.pc) = some 0x204 ∧
    (run 0xE0A1 (regs [(0, 0x10)])).map (fun t => (t.mode, t.pc)) =
      some (.faulted ⟨.invalidKeyIndex 0x10, 0x200⟩, 0x200) := by decide

/-- The reset state, Blocked in an Fx0A that waits for register `x`, with a keypad and a latch. -/
def blockedOn (x : Reg) (down : List Key) (l : Option Key) : State :=
  { State.reset with mode := .blocked x, key := keys down, latch := l }

/-- The executing step of T92, of T88, and the wait's step with nothing latched. -/
theorem test_wait_for_key_blocks :
    (run 0xF00A (regs [(1, 0x44)])).map (fun t => (t.mode, t.pc, t.getV 0, t.getV 1)) =
      some (.blocked 0, 0x200, 0, 0x44) ∧
    (nextOf (step (blockedOn 0 [3] none))).map (fun t => (t.mode, t.pc)) =
      some (.blocked 0, 0x200) := by decide

/-- The completing steps of T93 and W11. -/
theorem test_wait_for_key_completes :
    (nextOf (step (blockedOn 0xF [0xC] (some 0xC)))).map
      (fun t => (t.getV 0xF, t.pc, t.mode, t.latch)) = some (0x0C, 0x202, .running, none) ∧
    (nextOf (step { blockedOn 2 [9] (some 9) with dt := 2 })).map
      (fun t => (t.getV 2, t.pc, t.mode, t.dt)) = some (9, 0x202, .running, 2) := by decide

/-- T88, T89: no transition, a release, a press, and the lowest of two. -/
theorem test_key_sample_latches :
    ((blockedOn 0 [3] none).keySample (keys [3])).latch = none ∧
    ((blockedOn 0 [3] none).keySample (keys [])).latch = none ∧
    ((blockedOn 0 [] none).keySample (keys [3])).latch = some 3 ∧
    ((blockedOn 0 [] none).keySample (keys [2, 7])).latch = some 2 := by decide

/-- T90, T91, T94, T104: a set latch stays, and outside Blocked nothing is latched. -/
theorem test_key_sample_keeps_the_latch :
    ((blockedOn 0 [5] (some 5)).keySample (keys [1, 5])).latch = some 5 ∧
    ((blockedOn 0 [5] (some 5)).keySample (keys [])).latch = some 5 ∧
    ((blockedOn 0 [5] (some 5)).keySample (keys [])).key = keys [] ∧
    (State.reset.keySample (keys [4])).latch = none ∧
    (State.reset.keySample (keys [4])).key.get 4 = true := by decide

/-- The set_key of W11, one on a key already down, and one outside 0..15 (R219). -/
theorem test_set_key :
    ((blockedOn 2 [] none).setKey 9 true).latch = some 9 ∧
    ((blockedOn 2 [9] none).setKey 9 true).latch = none ∧
    ((blockedOn 2 [] none).setKey 16 true) = blockedOn 2 [] none := by decide

/-- T95. -/
theorem test_ld_vx_dt :
    (run 0xF307 { State.reset with dt := 0x3C }).map (·.getV 3) = some 0x3C := by decide

/-- T96, T98. -/
theorem test_ld_dt_vx :
    (run 0xF015 (regs [(0, 3)])).map (fun t => (t.dt, t.st)) = some (3, 0) ∧
    (run 0xF015 { State.reset with dt := 9 }).map (·.dt) = some 0 := by decide

/-- T97. -/
theorem test_ld_st_vx :
    (run 0xF118 (regs [(1, 1)])).map (fun t => (t.st, t.dt, t.soundActive, t.tick.soundActive)) =
      some (1, 0, true, false) := by decide

/-- W7, and the ticks of T96. -/
theorem test_tick :
    { State.reset with dt := 2 }.tick.dt = 1 ∧
    { State.reset with dt := 2 }.tick.tick.tick.dt = 0 ∧
    { blockedOn 2 [] none with dt := 5, st := 1 }.tick.dt = 4 ∧
    { blockedOn 2 [] none with dt := 5, st := 1 }.tick.tick.st = 0 := by decide

/-! ### Unknown opcodes -/

/-- T99, T102. -/
theorem test_unknown :
    (run 0x0000 State.reset).map (fun t => (t.pc, t.log)) = some (0x202, [⟨0x200, 0x0000⟩]) ∧
    (run 0xFFFF { State.reset with pc := 0xFFE }).map (·.pc) = some 0x000 := by decide

/-- T100, T101. -/
theorem test_unknown_changes_nothing :
    (run 0x8AB8 (regs [(0xA, 1), (0xB, 2), (0xF, 3)])).map
      (fun t => (t.pc, t.getV 0xA, t.getV 0xB, t.getV 0xF, t.log)) =
      some (0x202, 1, 2, 3, [⟨0x200, 0x8AB8⟩]) ∧
    (run 0x0123 State.reset).map (fun t => (t.pc, t.stack)) = some (0x202, []) := by decide

/-! ### Faulted mode and Reset -/

/-- T18's state. -/
def underflowed : State := { State.reset with mode := .faulted ⟨.stackUnderflow, 0x200⟩, dt := 4 }

/-- T103, T104. -/
theorem test_faulted_is_terminal :
    nextOf (step underflowed) = some underflowed ∧ underflowed.tick = underflowed ∧
    (underflowed.keySample (keys [1])).mode = underflowed.mode ∧
    (underflowed.keySample (keys [1])).key.get 1 = true := by decide

/-- T105, T109: Reset with an empty ROM, from Faulted, gives the reset state. -/
theorem test_reset_from_faulted :
    nextOf (event (.reset []) underflowed) = some State.reset := by decide +kernel

/-- W8's ROM, and T110. -/
theorem test_reset_loads_rom_and_font :
    (nextOf (event (.reset [0x60, 0x05, 0x70, 0x03]) underflowed)).map
      (fun t => (bytesAt t 0x200 5, bytesAt t 0x000 5, bytesAt t 0x04B 6, t.pc)) =
      some ([0x60, 0x05, 0x70, 0x03, 0x00], [0xF0, 0x90, 0x90, 0x90, 0xF0],
        [0xF0, 0x80, 0xF0, 0x80, 0x80, 0x00], 0x200) := by decide +kernel

/-- A ROM of one byte too many. -/
def largeRom : List Byte := List.replicate 3585 0x00

theorem largeRom_length : largeRom.length = 3585 := List.length_replicate

/-- T108. -/
theorem test_reset_refuses_a_large_rom :
    event (.reset largeRom) State.reset = .refused (.loadError 0x200 3585) := by
  simp [event, State.resetWith, memSize, loadAddr, largeRom_length]

/-- R220: pending events come first, and a cycle starts over. -/
theorem test_schedule :
    (nextOf (step { State.reset with dt := 2, schedule := pending [.tick, .step] })).map
      (fun t => (t.dt, t.pc, t.schedule)) = some (1, 0x200, pending [.step]) ∧
    (nextOf (step { State.reset with schedule := ⟨[], .cycle .snapshot [.tick], 0⟩ })).map
      (fun t => (t.pc, t.schedule.pending)) = some (0x200, [.tick]) := by decide

/-- R220: a host that only ever Ticks, after two steps; the CPU has not moved. -/
theorem test_ticks_for_ever :
    nextOf (core.run 2 { State.reset with dt := 2, schedule := onlyEvent .tick }) =
      some { State.reset with dt := 0, schedule := onlyEvent .tick } := by decide

/-- R220: in a free course each of the four events is one the host may deliver. -/
theorem test_free_events :
    [ClockEvent.step, .tick, .keySample (keys [3]), .snapshot].map Event.ofClockEvent =
      [.step, .tick, .keySample (keys [3]), .snapshot] := by decide

/-! ### Witnesses: for each obligation with hypotheses, a state and operands that meet them all, one
for each clause, at the ends of its range -/

theorem witness_DecodeOfEncodeIsInstruction :
    WellFormed defaultConfig (.unknown 0x0FFF) ∧ WellFormed altConfig (.unknown 0xFFFF) ∧
    WellFormed defaultConfig (.jp 0xFFF) ∧ WellFormed altConfig (.shl 0xF 0xF) := by decide

theorem witness_EncodeOfDecodeIsWord :
    defaultConfig.zeroFamilyMatch = .exact ∧ defaultConfig.strictLowNibble = true := by decide

theorem witness_StepRunsDecodedInstruction_steps :
    let s := { State.reset with pc := 0xFFE }
    s.mode = .running ∧ s.pc ≠ 0xFFF ∧ s.schedule.next.1 = .step ∧ s.schedule.pending = [] ∧
    s.schedule.course = .cycle .step [] := by decide

theorem witness_StepRunsDecodedInstruction_pending :
    let s := { State.reset with schedule := { freeCourse with pending := [.step, .tick] } }
    s.mode = .running ∧ s.pc ≠ 0xFFF ∧ s.schedule.next.1 = .step := by decide

theorem witness_FetchAtLastAddressFaults :
    let s := { State.reset with pc := 0xFFF }
    s.mode = .running ∧ s.pc = 0xFFF := by decide

theorem witness_FaultedStepAndTickChangeNothing :
    underflowed.mode = .faulted ⟨.stackUnderflow, 0x200⟩ := by decide

theorem witness_BlockedStepWaitsThenCompletes_waits :
    (blockedOn 0xF [0] none).mode = .blocked 0xF ∧ (blockedOn 0xF [0] none).latch = none := by decide

theorem witness_BlockedStepWaitsThenCompletes_completes :
    (blockedOn 0 [0xF] (some 0xF)).mode = .blocked 0 ∧
    (blockedOn 0 [0xF] (some 0xF)).latch = some 0xF := by decide

theorem witness_ScheduledEventIsNextStep :
    (pending [.tick]).pending = .tick :: [] ∧
    (onlyEvent .tick).pending = [] ∧ (onlyEvent .tick).course = .cycle .tick [] ∧
    (onlyEvent (.keySample (keys [3]))).pending = [] ∧
    (onlyEvent (.keySample (keys [3]))).course = .cycle (.keySample (keys [3])) [] ∧
    freeCourse.pending = [] ∧ freeCourse.course = .free := by decide

theorem witness_EveryStepKeepsTheInvariant :
    State.reset.Inv ∧ step State.reset = .next (State.reset.advance.emit ⟨0x200, 0x0000⟩) :=
  ⟨by decide, by rfl⟩

/-- A Blocked state and a Faulted one meet the invariant too. -/
theorem witness_EveryStepKeepsTheInvariant_modes :
    (blockedOn 1 [5] (some 5)).Inv ∧ underflowed.Inv := by decide

theorem witness_StepStopsOnlyOnOversizedRom :
    State.reset.Inv ∧ ∀ rom, State.reset.schedule.next.1 = .reset rom → rom.length ≤ 3584 :=
  ⟨by decide, fun _ h => by simp [State.reset, Schedule.next] at h⟩

/-- A ROM that just fits. -/
def fullRom : List Byte := List.replicate 3584 0x00

theorem fullRom_length : fullRom.length = 3584 := List.length_replicate

theorem witness_StepStopsOnlyOnOversizedRom_full :
    let s := { State.reset with schedule := pending [.reset fullRom] }
    s.Inv ∧ ∀ rom, s.schedule.next.1 = .reset rom → rom.length ≤ 3584 := by
  refine ⟨by decide, fun rom h => ?_⟩
  injection h with h
  exact h ▸ fullRom_length.le

/-- Each fault of `faultOf`, at the first value that raises it. -/
theorem witness_InstructionFaultsExactlyAsListed_faults :
    State.reset.mode = .running ∧
    faultOf State.reset .ret = some .stackUnderflow ∧
    faultOf { State.reset with stack := List.replicate 16 0 } (.call 0) = some .stackOverflow ∧
    faultOf (regs [(1, 16)]) (.skp 1) = some (.invalidKeyIndex 16) ∧
    faultOf (regs [(1, 16)]) (.sknp 1) = some (.invalidKeyIndex 16) ∧
    faultOf (regs [(1, 16)]) (.ldFVx 1) = some (.invalidFontDigit 16) ∧
    faultOf { State.reset with index := 0xFFE } (.ldBVx 0) = some (.memoryOutOfBounds 0x1000) ∧
    faultOf { State.reset with index := 0xFFF } (.ldMemVx 1) = some (.memoryOutOfBounds 0x1000) ∧
    faultOf { State.reset with index := 0xFFF } (.ldVxMem 1) = some (.memoryOutOfBounds 0x1000) ∧
    faultOf { State.reset with index := 0xFFF } (.drw 0 0 2) = some (.memoryOutOfBounds 0x1000) := by
  decide

/-- The last value that does not raise it. -/
theorem witness_InstructionFaultsExactlyAsListed_none :
    faultOf { State.reset with stack := [0] } .ret = none ∧
    faultOf { State.reset with stack := List.replicate 15 0 } (.call 0) = none ∧
    faultOf (regs [(1, 15)]) (.skp 1) = none ∧ faultOf (regs [(1, 15)]) (.sknp 1) = none ∧
    faultOf (regs [(1, 15)]) (.ldFVx 1) = none ∧
    faultOf { State.reset with index := 0xFFD } (.ldBVx 0) = none ∧
    faultOf { State.reset with index := 0xFFF } (.ldMemVx 0) = none ∧
    faultOf { State.reset with index := 0xFFF } (.ldVxMem 0) = none ∧
    faultOf { State.reset with index := 0xFFF } (.drw 0 0 1) = none ∧
    faultOf State.reset .cls = none := by decide

theorem witness_FaultingStepDiscardsItsWrites_fetch :
    let s := { State.reset with pc := 0xFFF }
    s.mode = .running ∧ cpuStep s = .next (s.raise (.memoryOutOfBounds 0x1000)) ∧
    (s.raise (.memoryOutOfBounds 0x1000)).mode = .faulted ⟨.memoryOutOfBounds 0x1000, 0xFFF⟩ :=
  ⟨by decide, by rfl, by decide⟩

theorem witness_FaultingStepDiscardsItsWrites_instruction :
    let s := State.reset.withFetchWord 16 0x00EE
    s.mode = .running ∧ cpuStep s = .next (s.raise .stackUnderflow) ∧
    (s.raise .stackUnderflow).mode = .faulted ⟨.stackUnderflow, 0x200⟩ :=
  ⟨by decide, by rfl, by decide⟩

theorem witness_RegistersChangeOnlyByTheirWriters :
    (∃ t, exec (.ldImm 1 5) State.reset = .next t ∧ writesReg (.ldImm 1 5) 2 = false) ∧
    (∃ t, exec (.ldVxMem 1) State.reset = .next t ∧ writesReg (.ldVxMem 1) 2 = false) ∧
    (∃ t, exec .cls State.reset = .next t ∧ writesReg .cls 0xF = false) :=
  ⟨⟨_, rfl, by decide⟩, ⟨_, rfl, by decide⟩, ⟨_, rfl, by decide⟩⟩

theorem witness_MemoryChangesOnlyWhereStored :
    let s := { State.reset with index := 0x300 }
    s.mem.wf = true ∧ (∃ t, exec (.ldBVx 1) s = .next t) ∧
    (0x2FF < s.effAddr 0 ∨ s.effAddr 3 ≤ 0x2FF) ∧ (0x303 < s.effAddr 0 ∨ s.effAddr 3 ≤ 0x303) ∧
    (∃ t, exec (.ldMemVx 1) s = .next t) ∧
    (0x2FF < s.effAddr 0 ∨ s.effAddr (1 + 1) ≤ 0x2FF) ∧
    (0x302 < s.effAddr 0 ∨ s.effAddr (1 + 1) ≤ 0x302) ∧ (∃ t, exec .cls s = .next t) :=
  ⟨by decide, ⟨_, rfl⟩, by decide, by decide, ⟨_, rfl⟩, by decide, by decide, ⟨_, rfl⟩⟩

theorem witness_StackIndexAndTimersChangeOnlyByTheirWriters :
    (∃ t, exec .cls State.reset = .next t) ∧ (∀ nnn, Instr.cls ≠ .call nnn) ∧ Instr.cls ≠ .ret ∧
    (∀ nnn, Instr.cls ≠ .ldI nnn) ∧ (∀ x, Instr.cls ≠ .addIVx x) ∧ (∀ x, Instr.cls ≠ .ldFVx x) ∧
    (∀ x, Instr.cls ≠ .ldMemVx x) ∧ (∀ x, Instr.cls ≠ .ldVxMem x) ∧
    (∀ x, Instr.cls ≠ .ldDtVx x) ∧ (∀ x, Instr.cls ≠ .ldStVx x) :=
  ⟨⟨_, rfl⟩, by simp⟩

/-- The block copy under UNCHANGED, and another instruction under ADVANCE. -/
theorem witness_StackIndexAndTimersChangeOnlyByTheirWriters_index :
    (∃ t, exec (.ldMemVx 1) { State.reset with index := 0x300 } = .next t) ∧
    State.reset.config.loadStoreIMode = .unchanged ∧
    (∃ t, exec .cls { State.reset with config := altConfig } = .next t) :=
  ⟨⟨_, rfl⟩, by decide, ⟨_, rfl⟩⟩

theorem witness_FramebufferChangesOnlyByDisplayInstructions :
    (∃ t, exec (.jp 0) State.reset = .next t) ∧ Instr.jp 0 ≠ .cls ∧
    (∀ x y n, Instr.jp 0 ≠ .drw x y n) ∧
    (∃ t, event .tick State.reset = .next t) ∧ Event.tick ≠ .step ∧
    (∀ rom, Event.tick ≠ .reset rom) :=
  ⟨⟨_, rfl⟩, by simp, by simp, ⟨_, rfl⟩, by simp, by simp⟩

/-- A Step that executes neither 00E0 nor Dxyn, in Running and in Blocked, and one that faults. -/
theorem witness_FramebufferChangesOnlyByDisplayInstructions_step :
    (∃ t, cpuStep State.reset = .next t) ∧
    (∀ w, State.reset.mode = .running → State.reset.fetchWord = .ok w →
      decode State.reset.config w ≠ .cls ∧ ∀ x y n, decode State.reset.config w ≠ .drw x y n) ∧
    (∃ t, cpuStep (blockedOn 0 [] none) = .next t) ∧ (blockedOn 0 [] none).mode ≠ .running ∧
    (∃ t f, cpuStep { State.reset with pc := 0xFFF } = .next t ∧ t.mode = .faulted f) := by
  refine ⟨⟨_, rfl⟩, fun w _ h => ?_, ⟨_, rfl⟩, by decide, _, _, rfl, rfl⟩
  have hw : State.reset.fetchWord = .ok 0x0000 := by rfl
  rw [hw] at h
  injection h with h
  subst h
  have hd : decode State.reset.config 0x0000 = .unknown 0x0000 := by decide
  rw [hd]
  simp

theorem witness_HostEventsChangeOnlyTimersAndKeys :
    Event.setKey 16 true ≠ .step ∧ (∀ rom, Event.setKey 16 true ≠ .reset rom) := by simp

theorem witness_ModeChangesOnlyByWaitOrFault :
    (∃ t, exec .cls State.reset = .next t ∧ t.mode = State.reset.mode) ∧
    (∃ t, exec (.ldVxK 3) State.reset = .next t ∧ t.mode = .blocked 3) ∧
    (∃ t, exec .ret State.reset = .next t ∧ t.mode = .faulted ⟨.stackUnderflow, 0x200⟩) :=
  ⟨⟨_, rfl, rfl⟩, ⟨_, rfl, rfl⟩, ⟨_, rfl, rfl⟩⟩

theorem witness_ReturnPopsOrUnderflows :
    { State.reset with stack := [0x206, 0x30A] }.stack = [0x206] ++ [0x30A] ∧
    { State.reset with stack := [0x206] }.stack = [] ++ [0x206] ∧ State.reset.stack = [] := by decide

theorem witness_JumpGoesToItsAddress_idle : (State.reset.withFetchWord 16 0x1200).Idle := by decide

theorem witness_CallPushesNextOrOverflows :
    { State.reset with stack := List.replicate 15 0x202 }.stack.length < 16 ∧
    16 ≤ { State.reset with stack := List.replicate 16 0x202 }.stack.length := by decide

theorem witness_CallThenReturnRoundTrip :
    ∃ t, exec (.call 0x300) State.reset = .next t ∧ State.reset.stack.length < 16 ∧
      t.tick.stack = t.stack := ⟨_, rfl, by decide, rfl⟩

theorem witness_ImmediateSkips :
    (regs [(1, 0x42)]).getV 1 = 0x42 ∧ ¬ (regs [(1, 0x42)]).getV 1 = 0x43 ∧
    (regs [(1, 0x42)]).getV 1 ≠ 0x43 ∧ ¬ (regs [(1, 0x42)]).getV 1 ≠ 0x42 := by decide

theorem witness_RegisterSkips :
    (regs [(1, 7), (2, 7)]).getV 1 = (regs [(1, 7), (2, 7)]).getV 2 ∧
    (regs [(1, 7), (2, 8)]).getV 1 ≠ (regs [(1, 7), (2, 8)]).getV 2 := by decide

/-- The frames' clauses: a register that is no destination, and with x = 0xF none but VF. -/
theorem witness_SetsThenFlag :
    (2 : Reg) ≠ 1 ∧ (2 : Reg) ≠ 0xF ∧ (1 : Reg) ≠ 0xF ∧ Part.mem ∉ [Part.v, Part.pc] := by decide

theorem witness_ShiftsSetTheBitShiftedOut :
    State.reset.config.shiftSource = .vx ∧
    { State.reset with config := altConfig }.config.shiftSource = .vy := by decide

theorem witness_RandomByteIsMasked : (0x0F : Byte).getLsbD 4 = false ∧ (2 : Reg) ≠ 1 := by decide

theorem witness_FontDigitPointsIAtItsGlyph :
    ConfigOk State.reset.config ∧
    ConfigOk { State.reset with config := { defaultConfig with fontBase := 0xFB0 } }.config ∧
    ((regs [(1, 15)]).getV 1).toNat ≤ 15 ∧ 15 < ((regs [(1, 16)]).getV 1).toNat := by decide

theorem witness_DecimalDigitsAreStoredAtI :
    let s := { State.reset with index := 0xFFD }
    s.mem.wf = true ∧ s.index.toNat + 2 < 4096 ∧
    (0xFFC < s.effAddr 0 ∨ s.effAddr 3 ≤ 0xFFC) ∧ (0x1000 < s.effAddr 0 ∨ s.effAddr 3 ≤ 0x1000) ∧
    4096 ≤ { State.reset with index := 0xFFE }.index.toNat + 2 := by decide

theorem witness_RegistersAreStoredAtI :
    let s := { State.reset with index := 0xFFE }
    s.mem.wf = true ∧ s.index.toNat + (1 : Reg).val < 4096 ∧ (1 : Reg) ≤ 1 ∧
    (0xFFD < s.effAddr 0 ∨ s.effAddr ((1 : Reg).val + 1) ≤ 0xFFD) ∧
    s.config.loadStoreIMode = .unchanged ∧
    { s with config := altConfig }.config.loadStoreIMode = .advance ∧
    4096 ≤ s.index.toNat + (2 : Reg).val := by decide

theorem witness_RegistersAreLoadedFromI :
    let s := { State.reset with index := 0xFF0 }
    s.index.toNat + (0xF : Reg).val < 4096 ∧ (0xF : Reg) ≤ 0xF ∧ (0xE : Reg) < 0xF ∧
    s.config.loadStoreIMode = .unchanged ∧
    { s with config := altConfig }.config.loadStoreIMode = .advance ∧
    4096 ≤ { State.reset with index := 0xFF1 }.index.toNat + (0xF : Reg).val := by decide

theorem witness_MemoryPrimitivesReadAndWriteOneByte :
    Memory.wf (memWith 0x300 [1, 2]) = true ∧ 4095 < 4096 ∧ 4096 ≤ 4096 := by decide

theorem witness_DrawXorsSpriteAndReportsCollision :
    { State.reset with index := 0xFFF }.index.toNat + (1 : Nibble).toNat ≤ 4096 ∧
    { State.reset with index := 0xFFF }.index.toNat + (0 : Nibble).toNat ≤ 4096 := by decide

/-- A pixel of the screen that a lit pixel of the sprite lands on, and a draw with none. -/
theorem witness_DrawXorsSpriteAndReportsCollision_clauses :
    (let s := { spriteAt300 [0xC0] [] with fb := clearFb.toggle 0 0 }
     s.fb.pixel 0 0 = true ∧ spriteBitAt s 0 1 1 0 0 = true) ∧
    ¬ (∃ px py, State.reset.fb.pixel px py = true ∧ spriteBitAt State.reset 0 1 1 px py = true) := by
  refine ⟨by decide, ?_⟩
  rintro ⟨px, py, h, -⟩
  simp [Framebuffer.pixel, State.reset, Vector.get] at h

theorem witness_DrawPastMemoryFaults :
    4096 < { State.reset with index := 0xFFF }.index.toNat + (2 : Nibble).toNat := by decide

theorem witness_DrawTwiceRestoresTheFramebuffer :
    (0 : Reg) ≠ 0xF ∧ (1 : Reg) ≠ 0xF ∧
    (spriteAt300 [0x81] []).index.toNat + (1 : Nibble).toNat ≤ 4096 := by decide

theorem witness_DrawCoordinatesWrap :
    (spriteAt300 [0x80] [(0, 64)]).index.toNat + (1 : Nibble).toNat ≤ 4096 ∧ (0 : Reg) ≠ 1 := by decide

theorem witness_KeySkips :
    ((regs [(1, 15)]).getV 1).toNat = (15 : Key).val ∧ ((regs [(1, 0)]).getV 1).toNat = (0 : Key).val ∧
    15 < ((regs [(1, 16)]).getV 1).toNat := by decide

theorem witness_KeySampleLatchesLowestPress_press :
    let s := blockedOn 0 [0] none
    s.mode = .blocked 0 ∧ s.latch = none ∧ s.key.get 2 = false ∧ (keys [0, 2, 7]).get 2 = true ∧
    ∀ j : Key, j < 2 → ¬ (s.key.get j = false ∧ (keys [0, 2, 7]).get j = true) := by decide

theorem witness_KeySampleLatchesLowestPress_no_press :
    let s := blockedOn 0 [3] none
    s.mode = .blocked 0 ∧ s.latch = none ∧
    ∀ k : Key, ¬ (s.key.get k = false ∧ (keys [3]).get k = true) := by decide

theorem witness_KeySampleLatchesLowestPress_stays :
    (∀ x, State.reset.mode ≠ .blocked x) ∧ (blockedOn 0 [5] (some 5)).latch ≠ none := by
  refine ⟨fun x => ?_, by decide⟩
  simp [State.reset]

theorem witness_SetKeyIsOneKeySample :
    15 < 16 ∧ (15 : Key).val = 15 ∧ (14 : Key).val ≠ 15 ∧ 16 ≤ 16 := by decide

theorem witness_TicksCountTimersDownToZero : ∀ f, (blockedOn 0 [] none).mode ≠ .faulted f := by
  simp [blockedOn]

theorem witness_BlockedCoreStillTakesEvents :
    (blockedOn 3 [7] none).mode = .blocked 3 ∧ (blockedOn 3 [7] none).latch = none := by decide

theorem witness_SoundIsActiveWhileStIsAboveZero :
    { State.reset with st := 1 }.snapshot.soundActive = true ∧
    State.reset.snapshot.soundActive = false := by decide

theorem witness_UnknownIsNoOpWithDiagnostic :
    unknownWord State.reset.config 0x0000 = true ∧
    unknownWord { State.reset with config := altConfig }.config 0xFFFF = true := by decide

theorem witness_ResetLoadsFontAndRom :
    ConfigOk underflowed.config ∧ fullRom.length ≤ 3584 ∧ ([] : List Byte).length ≤ 3584 :=
  ⟨by decide, fullRom_length.le, by decide⟩

theorem witness_OversizedRomIsRefused : 3584 < largeRom.length := by
  rw [largeRom_length]; decide

theorem witness_StoredCodeIsFetchedNext :
    let s := { State.reset with index := 0x202 }
    s.mem.wf = true ∧ s.index = s.pc + 2 ∧ 1 ≤ (1 : Reg).val ∧
    s.index.toNat + (0xF : Reg).val < 4096 := by decide

end Sys2Proof.Tests
end

/-! SUPPORT. Jumps and skips (40_control_flow.md R102, R103, R106, R107, R110). -/

namespace Sys2Proof.Proofs

open Sys2Proof.Machine Sys2Proof.Statements

/-! ### The frame of the two updates of pc -/

theorem unchangedExcept_pc_setPc (s : State) (a : Addr) : UnchangedExcept [.pc] s (s.setPc a) := by
  simp [UnchangedExcept]

theorem unchangedExcept_pc_skipIf (s : State) (c : Bool) : UnchangedExcept [.pc] s (s.skipIf c) := by
  simp [UnchangedExcept]

/-! ### The jump -/

theorem exec_jp (nnn : Addr) (s : State) : exec (.jp nnn) s = .next (s.setPc nnn) := rfl

theorem encodes_jp (nnn : Addr) : Encodes (.jp nnn) (0x1#4 ++ nnn) :=
  ⟨rfl, fun c => by simp [decode]⟩

theorem setPc_pc_self (s : State) : s.setPc s.pc = s := rfl

/-- In Running, a Step whose fetch gives the word of `i` executes `i`. -/
theorem cpuStep_of_fetch_encoded {s : State} {i : Instr} {w : OpWord} (hm : s.mode = .running)
    (hf : s.fetchWord = .ok w) (hi : Encodes i w) : cpuStep s = exec i s := by
  obtain ⟨-, hdec⟩ := hi
  simp only [cpuStep_running hm, hf, hdec]

/-- R103: a jump to its own address is a fixed point of Step. -/
theorem cpuStep_of_idle {s : State} (h : s.Idle) : cpuStep s = .next s := by
  obtain ⟨hm, hf⟩ := h
  calc cpuStep s = exec (.jp s.pc) s := cpuStep_of_fetch_encoded hm hf (encodes_jp s.pc)
    _ = .next (s.setPc s.pc) := exec_jp s.pc s
    _ = .next s := by rw [setPc_pc_self]

/-! ### The skips -/

/-- An instruction that is `skipIf` of a test skips when the test's condition holds (R110). -/
theorem skipsWhen_of_exec_eq_skipIf {i : Instr} {s : State} {c : Bool} {cond : Prop}
    (hexec : exec i s = .next (s.skipIf c)) (hc : c = true ↔ cond) : SkipsWhen i s cond := by
  refine ⟨fun h => ⟨_, hexec, ?_, unchangedExcept_pc_skipIf s c⟩,
    fun h => ⟨_, hexec, ?_, unchangedExcept_pc_skipIf s c⟩⟩
  · rw [State.skipIf_pc, if_pos (hc.mpr h)]
  · rw [State.skipIf_pc, if_neg (mt hc.mp h)]

theorem exec_seImm (x : Reg) (kk : Byte) (s : State) :
    exec (.seImm x kk) s = .next (s.skipIf (s.getV x == kk)) := rfl

theorem exec_sneImm (x : Reg) (kk : Byte) (s : State) :
    exec (.sneImm x kk) s = .next (s.skipIf (s.getV x != kk)) := rfl

theorem encodes_seImm (x : Reg) (kk : Byte) : Encodes (.seImm x kk) (0x3#4 ++ x.bits ++ kk) :=
  ⟨rfl, fun c => by simp [decode]⟩

theorem encodes_sneImm (x : Reg) (kk : Byte) : Encodes (.sneImm x kk) (0x4#4 ++ x.bits ++ kk) :=
  ⟨rfl, fun c => by simp [decode]⟩

/-! ### The obligations -/

/-- Settles O23: the meaning is `setPc`, and a jump to its own address sets pc to what it was. -/
theorem jumpGoesToItsAddress : Obligations.JumpGoesToItsAddress :=
  ⟨encodes_jp,
    fun nnn s => ⟨s.setPc nnn, exec_jp nnn s, s.setPc_pc nnn, unchangedExcept_pc_setPc s nnn⟩,
    fun _ => cpuStep_of_idle⟩

/-- Settles O26: both meanings are `skipIf` of a comparison of Vx with kk. -/
theorem immediateSkips : Obligations.ImmediateSkips :=
  ⟨encodes_seImm, encodes_sneImm, fun x kk s =>
    ⟨skipsWhen_of_exec_eq_skipIf (exec_seImm x kk s) beq_iff_eq,
      skipsWhen_of_exec_eq_skipIf (exec_sneImm x kk s) bne_iff_ne⟩⟩

end Sys2Proof.Proofs

/-! SUPPORT. Loads and sums of an immediate (41_register_alu.md R120, R122). -/

namespace Sys2Proof.Proofs

open Sys2Proof.Machine Sys2Proof.Statements

/-! ### The write of one register -/

theorem unchangedExcept_v_pc_advance_setV (x : Reg) (b : Byte) (s : State) :
    UnchangedExcept [.v, .pc] s (s.advance.setV x b) := by
  simp [UnchangedExcept]

/-- Advancing pc and writing Vx is all that `SetsOnly` allows; it holds for x = 0xF too. -/
theorem setsOnly_advance_setV (x : Reg) (b : Byte) (s : State) :
    SetsOnly x b s (s.advance.setV x b) := by
  refine ⟨?_, fun r hr => ?_, ?_, unchangedExcept_v_pc_advance_setV x b s⟩
  · rw [State.getV_setV, if_pos rfl]
  · rw [State.getV_setV, if_neg hr, State.getV_advance]
  · rw [State.setV_pc, State.advance_pc]

/-! ### The two instructions -/

theorem exec_ldImm (x : Reg) (kk : Byte) (s : State) :
    exec (.ldImm x kk) s = .next (s.advance.setV x kk) := rfl

theorem exec_addImm (x : Reg) (kk : Byte) (s : State) :
    exec (.addImm x kk) s = .next (s.advance.setV x (s.getV x + kk)) := rfl

theorem encodes_ldImm (x : Reg) (kk : Byte) : Encodes (.ldImm x kk) (0x6#4 ++ x.bits ++ kk) :=
  ⟨rfl, fun c => by simp [decode]⟩

theorem encodes_addImm (x : Reg) (kk : Byte) : Encodes (.addImm x kk) (0x7#4 ++ x.bits ++ kk) :=
  ⟨rfl, fun c => by simp [decode]⟩

/-- The sum of two bytes is their sum as numbers modulo 256 (R122). -/
theorem byte_ofNat_sum_mod (a b : Byte) : BitVec.ofNat 8 ((a.toNat + b.toNat) % 256) = a + b := by
  rw [← BitVec.toNat_add, BitVec.ofNat_toNat, BitVec.setWidth_eq]

/-! ### The obligation -/

/-- Settles O29: both meanings advance pc and write one register, the second with a sum of bytes. -/
theorem immediateLoadAndAdd : Obligations.ImmediateLoadAndAdd := by
  refine ⟨encodes_ldImm, encodes_addImm, fun x kk s =>
    ⟨⟨_, exec_ldImm x kk s, setsOnly_advance_setV x kk s⟩, ⟨_, exec_addImm x kk s, ?_⟩⟩⟩
  rw [byte_ofNat_sum_mod]
  exact setsOnly_advance_setV x (s.getV x + kk) s

end Sys2Proof.Proofs

/-! SUPPORT. The load of the index register (42_index_memory.md R150). -/

namespace Sys2Proof.Proofs

open Sys2Proof.Machine Sys2Proof.Statements

/-! ### The frame of a write of I -/

theorem unchangedExcept_index_pc_advance_setIndex (a : Addr) (s : State) :
    UnchangedExcept [.index, .pc] s (s.advance.setIndex a) := by
  simp [UnchangedExcept]

/-! ### The instruction -/

theorem exec_ldI (nnn : Addr) (s : State) :
    exec (.ldI nnn) s = .next (s.advance.setIndex nnn) := rfl

theorem encodes_ldI (nnn : Addr) : Encodes (.ldI nnn) (0xA#4 ++ nnn) :=
  ⟨rfl, fun c => by simp [decode]⟩

/-! ### The obligation -/

/-- Settles O35: the meaning advances pc and writes nnn to I, for any nnn. -/
theorem loadIndexSetsI : Obligations.LoadIndexSetsI := by
  refine ⟨encodes_ldI, fun nnn s => ⟨s.advance.setIndex nnn, exec_ldI nnn s, ?_, ?_,
    unchangedExcept_index_pc_advance_setIndex nnn s⟩⟩
  · exact State.setIndex_index s.advance nnn
  · rw [State.setIndex_pc, State.advance_pc]

end Sys2Proof.Proofs

/-! SUPPORT. Clearing the framebuffer (43_display.md R170). -/

namespace Sys2Proof.Proofs

open Sys2Proof.Machine Sys2Proof.Statements

/-! ### The frame of a write of the framebuffer -/

theorem unchangedExcept_fb_pc_advance_setFb (fb : Framebuffer) (s : State) :
    UnchangedExcept [.fb, .pc] s (s.advance.setFb fb) := by
  simp [UnchangedExcept]

/-! ### The instruction -/

theorem exec_cls (s : State) : exec .cls s = .next (s.advance.setFb clearFb) := rfl

/-- Under both values of ZERO_FAMILY_MATCH the word 00bb of family 0x0 matches its low byte bb (R76). -/
theorem zeroMatches_zero_append (c : Config) (b : Byte) : zeroMatches c (0x00#8 ++ b) b = true := by
  have hkk : fieldKK (0x00#8 ++ b) = b := by
    rw [fieldKK, extract_append_low _ _ _ _ (by omega), extract_all]
  rw [zeroMatches]
  cases c.zeroFamilyMatch with
  | exact => exact beq_self_eq_true _
  | lowByte => exact beq_iff_eq.mpr hkk

theorem encodes_cls : Encodes .cls 0x00E0 :=
  ⟨rfl, fun c => calc
    decode c 0x00E0 = decodeZero c (0x00#8 ++ 0xE0#8) := rfl
    _ = .cls := if_pos (zeroMatches_zero_append c 0xE0)⟩

/-! ### The obligation -/

/-- Settles O42: the meaning advances pc and puts the blank framebuffer, every pixel of which is off,
in the place of the old one. -/
theorem clearTurnsEveryPixelOff : Obligations.ClearTurnsEveryPixelOff := by
  refine ⟨encodes_cls, fun s => ⟨s.advance.setFb clearFb, exec_cls s, fun px py => ?_, ?_,
    unchangedExcept_fb_pc_advance_setFb clearFb s⟩⟩
  · rw [State.setFb_fb, clearFb_pixel]
  · rw [State.setFb_pc, State.advance_pc]

end Sys2Proof.Proofs

/-! SUPPORT. The sound signal (60_exceptions.md R223). -/

namespace Sys2Proof.Proofs

open Sys2Proof.Machine Sys2Proof.Statements

/-! ### The signal of a state and of its snapshot -/

theorem soundActive_iff (s : State) : s.soundActive = true ↔ 0 < s.st.toNat := by
  rw [State.soundActive, decide_eq_true_iff]

theorem snapshot_soundActive (s : State) : s.snapshot.soundActive = s.soundActive := rfl

/-! ### The obligation -/

/-- Settles O54: a snapshot carries the state's own signal, which tests that ST is above zero. -/
theorem soundIsActiveWhileStIsAboveZero : Obligations.SoundIsActiveWhileStIsAboveZero := fun s => by
  rw [snapshot_soundActive, soundActive_iff]

end Sys2Proof.Proofs

/-! SUPPORT. The decoder against the encoder and against the sets of UNKNOWN words (30_encoding.md
R72, R74, R76). -/

namespace Sys2Proof.Proofs

open Sys2Proof.Machine Sys2Proof.Statements

/-! ### The word of each known instruction decodes to it, under every configuration -/

/-- The word 00bb of family 0x0 matches no other low byte, under either value of
ZERO_FAMILY_MATCH. -/
theorem zeroMatches_zero_append_ne (c : Config) {b d : Byte} (h : b ≠ d) :
    zeroMatches c (0x00#8 ++ b) d = false := by
  have hkk : ∀ e : Byte, fieldKK (0x00#8 ++ e) = e := fun e => by
    rw [fieldKK, extract_append_low _ _ _ _ (by omega), extract_all]
  rw [zeroMatches]
  cases c.zeroFamilyMatch with
  | exact => exact beq_eq_false_iff_ne.mpr fun e => h (by rw [← hkk b, e, hkk d])
  | lowByte => rw [hkk b]; exact beq_eq_false_iff_ne.mpr h

theorem encodes_ret : Encodes .ret 0x00EE :=
  ⟨rfl, fun c => calc
    decode c 0x00EE = decodeZero c (0x00#8 ++ 0xEE#8) := rfl
    _ = _ := if_neg (ne_true_of_eq_false (zeroMatches_zero_append_ne c (by decide)))
    _ = .ret := if_pos (zeroMatches_zero_append c 0xEE)⟩

/-- Every known instruction, family by family. -/
theorem decode_encode_of_known (c : Config) {i : Instr} (h : ∀ v, i ≠ .unknown v) :
    decode c (encode i) = i := by
  cases i with
  | unknown w => exact absurd rfl (h w)
  | cls => exact encodes_cls.2 c
  | ret => exact encodes_ret.2 c
  | jp | call | ldI | jpV0 => simp [encode, decode]
  | seImm | sneImm | ldImm | addImm | rnd | drw => simp [encode, decode]
  | seReg | sneReg => simp [encode, decode, lowNibbleMatches]
  | ldReg | orReg | andReg | xorReg | addReg | subReg | shr | subnReg | shl =>
    simp [encode, decode, decodeAlu]
  | skp | sknp => simp [encode, decode, decodeKey]
  | ldVxDt | ldVxK | ldDtVx | ldStVx | addIVx | ldFVx | ldBVx | ldMemVx | ldVxMem =>
    simp [encode, decode, decodeMisc]

theorem encodes_of_known {i : Instr} (h : ∀ v, i ≠ .unknown v) : Encodes i (encode i) :=
  ⟨rfl, fun c => decode_encode_of_known c h⟩

/-! ### The fields of a word as numbers -/

theorem toNat_fieldT (w : OpWord) : (fieldT w).toNat = w.toNat / 0x1000 := by
  have := w.isLt
  simp only [fieldT, BitVec.extractLsb'_toNat, Nat.shiftRight_eq_div_pow]
  omega

theorem toNat_fieldN (w : OpWord) : (fieldN w).toNat = w.toNat % 16 := by
  simp [fieldN, BitVec.extractLsb'_toNat]

theorem toNat_fieldKK (w : OpWord) : (fieldKK w).toNat = w.toNat % 256 := by
  simp [fieldKK, BitVec.extractLsb'_toNat]

/-- The word of format XKK with these fields. -/
theorem xkk_of_fields {w : OpWord} {t : Nibble} {kk : Byte} (ht : fieldT w = t)
    (hk : fieldKK w = kk) : t ++ (fieldX w).bits ++ kk = w := by
  rw [← ht, ← hk, ← word_eq_xkk]

/-- The word of format XYN with these fields. -/
theorem xyn_of_fields {w : OpWord} {t n : Nibble} (ht : fieldT w = t) (hn : fieldN w = n) :
    t ++ (fieldX w).bits ++ (fieldY w).bits ++ n = w := by
  rw [← ht, ← hn, ← word_eq_xyn]

/-- The word of format NNN with these fields. -/
theorem nnn_of_fields {w : OpWord} {t : Nibble} (ht : fieldT w = t) : t ++ fieldNNN w = w := by
  rw [← ht, ← word_eq_nnn]

/-! ### The sets of R76 in terms of the fields -/

theorem toNat_bne {n : Nat} (a b : BitVec n) : (a.toNat != b.toNat) = !(a == b) :=
  Bool.eq_iff_iff.mpr (by simp [BitVec.toNat_inj])

theorem unknownWord_zero {c : Config} {w : OpWord} (ht : fieldT w = 0x0#4) :
    unknownWord c w = (!zeroMatches c w 0xE0 && !zeroMatches c w 0xEE) := by
  have hf : w.toNat / 0x1000 = 0x0 := by rw [← toNat_fieldT, ht]; rfl
  rw [unknownWord, hf, zeroMatches, zeroMatches]
  cases c.zeroFamilyMatch with
  | exact => exact congrArg₂ and (toNat_bne w 0x00E0) (toNat_bne w 0x00EE)
  | lowByte =>
    rw [← toNat_fieldKK]
    exact congrArg₂ and (toNat_bne (fieldKK w) 0xE0) (toNat_bne (fieldKK w) 0xEE)

theorem unknownWord_skip {c : Config} {w : OpWord} (ht : fieldT w = 0x5#4 ∨ fieldT w = 0x9#4) :
    unknownWord c w = !lowNibbleMatches c w := by
  have hn : (w.toNat % 16 != 0) = !(fieldN w == 0x0#4) := by
    rw [← toNat_fieldN]
    exact toNat_bne (fieldN w) 0x0#4
  have hf : w.toNat / 0x1000 = 0x5 ∨ w.toNat / 0x1000 = 0x9 := by
    rw [← toNat_fieldT]
    exact ht.imp (congrArg BitVec.toNat) (congrArg BitVec.toNat)
  rw [unknownWord, lowNibbleMatches]
  rcases hf with hf | hf <;> simp [hf, hn, Bool.and_comm]

theorem unknownWord_alu {c : Config} {w : OpWord} (ht : fieldT w = 0x8#4) :
    unknownWord c w = [0x8, 0x9, 0xA, 0xB, 0xC, 0xD, 0xF].contains (fieldN w).toNat := by
  have hf : w.toNat / 0x1000 = 0x8 := by rw [← toNat_fieldT, ht]; rfl
  rw [unknownWord, hf, toNat_fieldN]
  rfl

theorem unknownWord_key {c : Config} {w : OpWord} (ht : fieldT w = 0xE#4) :
    unknownWord c w = !([0x9E, 0xA1].contains (fieldKK w).toNat) := by
  have hf : w.toNat / 0x1000 = 0xE := by rw [← toNat_fieldT, ht]; rfl
  rw [unknownWord, hf, toNat_fieldKK]
  rfl

theorem unknownWord_misc {c : Config} {w : OpWord} (ht : fieldT w = 0xF#4) :
    unknownWord c w =
      !([0x07, 0x0A, 0x15, 0x18, 0x1E, 0x29, 0x33, 0x55, 0x65].contains (fieldKK w).toNat) := by
  have hf : w.toNat / 0x1000 = 0xF := by rw [← toNat_fieldT, ht]; rfl
  rw [unknownWord, hf, toNat_fieldKK]
  rfl

/-- The families with no UNKNOWN word. -/
def fullFamilies : List Nibble := [0x1, 0x2, 0x3, 0x4, 0x6, 0x7, 0xA, 0xB, 0xC, 0xD]

theorem unknownWord_full {c : Config} {w : OpWord} (ht : fieldT w ∈ fullFamilies) :
    unknownWord c w = false := by
  have hf : w.toNat / 0x1000 ∈ fullFamilies.map BitVec.toNat := by
    rw [← toNat_fieldT]
    exact List.mem_map_of_mem ht
  simp only [fullFamilies, List.map_cons, List.map_nil, List.mem_cons, List.not_mem_nil,
    or_false] at hf
  rw [unknownWord]
  rcases hf with hf | hf | hf | hf | hf | hf | hf | hf | hf | hf <;> simp [hf]

/-! ### What the decoder can answer -/

/-- `i` is a right answer of the decoder for the word `w`: UNKNOWN(w) on a word of the sets of R76;
on any other word a known instruction, whose own word is `w` where family 0x0 is matched by the
whole word and families 0x5 and 0x9 need low nibble 0. -/
def Reads (c : Config) (w : OpWord) (i : Instr) : Prop :=
  (unknownWord c w = true ∧ i = .unknown w) ∨
  (unknownWord c w = false ∧ (∀ v, i ≠ .unknown v) ∧
    (c.zeroFamilyMatch = .exact → c.strictLowNibble = true → encode i = w))

/-- A known instruction that `w` itself encodes. -/
theorem Reads.known {c : Config} {w : OpWord} {i : Instr} (hu : unknownWord c w = false)
    (hi : ∀ v, i ≠ .unknown v) (hw : encode i = w) : Reads c w i :=
  .inr ⟨hu, hi, fun _ _ => hw⟩

theorem Reads.unknown {c : Config} {w : OpWord} (hu : unknownWord c w = true) :
    Reads c w (.unknown w) :=
  .inl ⟨hu, rfl⟩

theorem reads_decodeZero (c : Config) {w : OpWord} (ht : fieldT w = 0x0#4) :
    Reads c w (decodeZero c w) := by
  have hu := unknownWord_zero (c := c) ht
  have hw : ∀ b, c.zeroFamilyMatch = .exact → zeroMatches c w b = true → w = 0x00#8 ++ b :=
    fun b he h => by simpa [zeroMatches, he] using h
  unfold decodeZero
  cases h0 : zeroMatches c w 0xE0 with
  | true => exact .inr ⟨by rw [hu, h0]; rfl, by simp, fun he _ => (hw _ he h0).symm⟩
  | false =>
    cases hE : zeroMatches c w 0xEE with
    | true => exact .inr ⟨by rw [hu, h0, hE]; rfl, by simp, fun he _ => (hw _ he hE).symm⟩
    | false => exact .unknown (by rw [hu, h0, hE]; rfl)

/-- Families 0x5 and 0x9: the instruction `i` of the word's fields x and y. -/
theorem reads_skip (c : Config) {w : OpWord} {i : Instr} {t : Nibble} (ht : fieldT w = t)
    (h59 : t = 0x5#4 ∨ t = 0x9#4) (hi : ∀ v, i ≠ .unknown v)
    (he : encode i = t ++ (fieldX w).bits ++ (fieldY w).bits ++ 0x0#4) :
    Reads c w (if lowNibbleMatches c w then i else .unknown w) := by
  have hu := unknownWord_skip (c := c) (w := w) (ht ▸ h59)
  split
  · next h =>
    refine .inr ⟨by simp [hu, h], hi, fun _ hs => ?_⟩
    have hn : fieldN w = 0x0#4 := by simpa [lowNibbleMatches, hs] using h
    rw [he, xyn_of_fields ht hn]
  · next h => exact .unknown (by simp [hu, h])

theorem reads_decodeAlu (c : Config) {w : OpWord} (ht : fieldT w = 0x8#4) :
    Reads c w (decodeAlu w) := by
  have hu := unknownWord_alu (c := c) ht
  have hrest : ∀ n : Nibble, [0x8, 0x9, 0xA, 0xB, 0xC, 0xD, 0xF].contains n.toNat = true ∨
      n ∈ [0x0#4, 0x1#4, 0x2#4, 0x3#4, 0x4#4, 0x5#4, 0x6#4, 0x7#4, 0xE#4] := by decide
  unfold decodeAlu
  split
  case h_10 =>
    refine .unknown (hu.trans ((hrest (fieldN w)).resolve_right ?_))
    simp_all
  all_goals
    next hn => exact .known (by rw [hu, hn]; rfl) (by simp) (xyn_of_fields ht hn)

theorem reads_decodeKey (c : Config) {w : OpWord} (ht : fieldT w = 0xE#4) :
    Reads c w (decodeKey w) := by
  have hu := unknownWord_key (c := c) ht
  unfold decodeKey
  split
  case h_3 => exact .unknown (by simp_all [← BitVec.toNat_inj])
  all_goals
    next hk => exact .known (by rw [hu, hk]; rfl) (by simp) (xkk_of_fields ht hk)

theorem reads_decodeMisc (c : Config) {w : OpWord} (ht : fieldT w = 0xF#4) :
    Reads c w (decodeMisc w) := by
  have hu := unknownWord_misc (c := c) ht
  unfold decodeMisc
  split
  case h_10 => exact .unknown (by simp_all [← BitVec.toNat_inj])
  all_goals
    next hk => exact .known (by rw [hu, hk]; rfl) (by simp) (xkk_of_fields ht hk)

/-- A family with no UNKNOWN word: the one instruction of the word's fields. -/
theorem reads_full (c : Config) {w : OpWord} {i : Instr} {t : Nibble} (ht : fieldT w = t)
    (hm : t ∈ fullFamilies) (hi : ∀ v, i ≠ .unknown v) (hw : encode i = w) : Reads c w i :=
  .known (unknownWord_full (ht ▸ hm)) hi hw

/-- The decoder answers right for every word, family by family. -/
theorem reads_decode (c : Config) (w : OpWord) : Reads c w (decode c w) := by
  have hrest : ∀ t : Nibble, t = 0xF#4 ∨ t ∈ [0x0#4, 0x1#4, 0x2#4, 0x3#4, 0x4#4, 0x5#4, 0x6#4,
      0x7#4, 0x8#4, 0x9#4, 0xA#4, 0xB#4, 0xC#4, 0xD#4, 0xE#4] := by decide
  unfold decode
  split
  case h_1 ht => exact reads_decodeZero c ht
  case h_6 ht => exact reads_skip c ht (.inl rfl) (by simp) rfl
  case h_9 ht => exact reads_decodeAlu c ht
  case h_10 ht => exact reads_skip c ht (.inr rfl) (by simp) rfl
  case h_14 ht => exact reads_full c ht (by decide) (by simp) (xyn_of_fields ht rfl)
  case h_15 ht => exact reads_decodeKey c ht
  case h_16 => exact reads_decodeMisc c ((hrest (fieldT w)).resolve_right (by simp_all))
  case h_2 ht | h_3 ht | h_11 ht | h_12 ht =>
    exact reads_full c ht (by decide) (by simp) (nnn_of_fields ht)
  case h_4 ht | h_5 ht | h_7 ht | h_8 ht | h_13 ht =>
    exact reads_full c ht (by decide) (by simp) (xkk_of_fields ht rfl)

theorem decode_unknownWord {c : Config} {w : OpWord} (h : unknownWord c w = true) :
    decode c w = .unknown w := by
  obtain ⟨-, hd⟩ | ⟨hu, -, -⟩ := reads_decode c w
  · exact hd
  · rw [hu] at h
    cases h

theorem wellFormed_of_known (c : Config) {i : Instr} (h : ∀ v, i ≠ .unknown v) :
    WellFormed c i := by
  cases i with
  | unknown w => exact absurd rfl (h w)
  | _ => rfl

/-! ### The obligations -/

/-- Settles O1: an instruction is UNKNOWN, and then its word is one of the sets of R76, or it is
known, and then its fields put together are taken apart again. -/
theorem decodeOfEncodeIsInstruction : Obligations.DecodeOfEncodeIsInstruction := by
  intro c i hwf
  by_cases hi : ∃ v, i = .unknown v
  · obtain ⟨v, rfl⟩ := hi
    exact decode_unknownWord hwf
  · exact decode_encode_of_known c (not_exists.mp hi)

/-- Settles O2: the known instructions that the decoder answers have the word as their own, and
UNKNOWN keeps it. -/
theorem encodeOfDecodeIsWord : Obligations.EncodeOfDecodeIsWord := by
  intro c w hz hs
  obtain ⟨-, hd⟩ | ⟨-, -, hw⟩ := reads_decode c w
  · rw [hd]
    rfl
  · exact hw hz hs

/-- Settles O3: the decoder's two kinds of answers are told apart by the sets of R76. -/
theorem unknownExactlyOutsideOpcodeMap : Obligations.UnknownExactlyOutsideOpcodeMap := by
  intro c w
  obtain ⟨hu, hd⟩ | ⟨hu, hk, -⟩ := reads_decode c w
  · rw [hd]
    exact ⟨hu, iff_of_true rfl hu⟩
  · exact ⟨wellFormed_of_known c hk, iff_of_false (hk w) (by simp [hu])⟩

/-- Settles O4: the decoder evaluated on each word. -/
theorem specWordsDecodeAsListed : Obligations.SpecWordsDecodeAsListed := by
  unfold Obligations.SpecWordsDecodeAsListed
  decide

end Sys2Proof.Proofs

/-! SUPPORT. What an instruction can do: raise the fault that the table of 60_exceptions.md section
1 gives it, or leave the state of its meaning, `effect`; and which pieces of state an effect leaves
alone. -/

namespace Sys2Proof.Proofs

open Sys2Proof.Machine Sys2Proof.Statements

/-! ### The state an instruction leaves where it raises no fault -/

/-- The state after an instruction that does not fault. -/
def effect (s : State) : Instr → State
  | .cls         => s.advance.setFb clearFb
  | .ret         => { s with stack := s.stack.dropLast, pc := s.stack.getLastD 0 }
  | .jp nnn      => s.setPc nnn
  | .call nnn    => { s with stack := s.stack ++ [s.pc + 2], pc := nnn }
  | .seImm x kk  => s.skipIf (s.getV x == kk)
  | .sneImm x kk => s.skipIf (s.getV x != kk)
  | .seReg x y   => s.skipIf (s.getV x == s.getV y)
  | .ldImm x kk  => s.advance.setV x kk
  | .addImm x kk => s.advance.setV x (s.getV x + kk)
  | .ldReg x y   => s.advance.setV x (s.getV y)
  | .orReg x y   => s.advance.setV x (s.getV x ||| s.getV y)
  | .andReg x y  => s.advance.setV x (s.getV x &&& s.getV y)
  | .xorReg x y  => s.advance.setV x (s.getV x ^^^ s.getV y)
  | .addReg x y  =>
    s.advance.setVThenFlag x (s.getV x + s.getV y) (carryFlag (s.getV x) (s.getV y))
  | .subReg x y  =>
    s.advance.setVThenFlag x (s.getV x - s.getV y) (noBorrowFlag (s.getV x) (s.getV y))
  | .shr x y     =>
    s.advance.setVThenFlag x (s.shiftOperand x y >>> 1) (shiftedOutRight (s.shiftOperand x y))
  | .subnReg x y =>
    s.advance.setVThenFlag x (s.getV y - s.getV x) (noBorrowFlag (s.getV y) (s.getV x))
  | .shl x y     =>
    s.advance.setVThenFlag x (s.shiftOperand x y <<< 1) (shiftedOutLeft (s.shiftOperand x y))
  | .sneReg x y  => s.skipIf (s.getV x != s.getV y)
  | .ldI nnn     => s.advance.setIndex nnn
  | .jpV0 nnn    => s.setPc (s.jumpV0Target nnn)
  | .rnd x kk    => s.advance.countDraw.setV x (Config.freeByte s.draws &&& kk)
  | .drw x y n   =>
    let drawn := drawSprite s.fb (s.getV x) (s.getV y)
      ((List.range n.toNat).map fun k => s.mem.read (s.index.toNat + k))
    (s.advance.setFb drawn.1).setV regF (flagByte drawn.2)
  | .skp x       => s.skipIf (s.keyDown (Fin.ofNat 16 (s.getV x).toNat))
  | .sknp x      => s.skipIf (!s.keyDown (Fin.ofNat 16 (s.getV x).toNat))
  | .ldVxDt x    => s.advance.setV x s.dt
  | .ldVxK x     => { s with latch := none, mode := .blocked x }
  | .ldDtVx x    => s.advance.setDt (s.getV x)
  | .ldStVx x    => s.advance.setSt (s.getV x)
  | .addIVx x    => s.advance.setIndex (s.index + (s.getV x).zeroExtend 12)
  | .ldFVx x     =>
    s.advance.setIndex (BitVec.ofNat 12 (s.config.fontBase.toNat + 5 * (s.getV x).toNat))
  | .ldBVx x     => s.advance.setMem (s.mem.writeAll s.index.toNat (bcdDigits (s.getV x)))
  | .ldMemVx x   =>
    (s.advance.setIndex (s.indexAfterBlock x)).setMem (s.mem.writeAll s.index.toNat (s.regsUpTo x))
  | .ldVxMem x   =>
    (s.advance.setIndex (s.indexAfterBlock x)).setRegs (setRegsFrom s.v 0
      ((List.range (x.val + 1)).map fun k => s.mem.read (s.index.toNat + k)))
  | .unknown w   => s.advance.emit ⟨s.pc, w⟩

/-! ### The two things an instruction can do -/

theorem exec_of_faultOf_some {s : State} {i : Instr} {f : Fault} (h : faultOf s i = some f) :
    exec i s = .next (s.raise f) := by
  obtain ⟨hB, hM, hD⟩ := memory_meanings_error (s := s)
  cases i with
  | ret =>
    obtain ⟨hs, ⟨⟩⟩ := Option.ite_none_right_eq_some.mp h
    rw [exec, execRet, State.popToPc_error hs, finish_error]
  | call nnn =>
    obtain ⟨hs, ⟨⟩⟩ := Option.ite_none_right_eq_some.mp h
    rw [exec, execCall, State.push_error _ hs, map_error, finish_error]
  | skp x =>
    obtain ⟨hx, ⟨⟩⟩ := Option.ite_none_right_eq_some.mp h
    rw [exec, execSkp, keyIndex_error hx, map_error, finish_error]
  | sknp x =>
    obtain ⟨hx, ⟨⟩⟩ := Option.ite_none_right_eq_some.mp h
    rw [exec, execSknp, keyIndex_error hx, map_error, finish_error]
  | ldFVx x =>
    obtain ⟨hx, ⟨⟩⟩ := Option.ite_none_right_eq_some.mp h
    rw [exec, execLdFVx, State.glyphAddr_error hx, map_error, finish_error]
  | ldBVx x =>
    obtain ⟨hi, ⟨⟩⟩ := Option.ite_none_right_eq_some.mp h
    exact hB x hi
  | ldMemVx x =>
    obtain ⟨hi, ⟨⟩⟩ := Option.ite_none_right_eq_some.mp h
    exact (hM x hi).1
  | ldVxMem x =>
    obtain ⟨hi, ⟨⟩⟩ := Option.ite_none_right_eq_some.mp h
    exact (hM x hi).2
  | drw x y n =>
    obtain ⟨hi, ⟨⟩⟩ := Option.ite_none_right_eq_some.mp h
    exact hD x y n hi
  | _ => cases h

theorem exec_of_faultOf_none {s : State} {i : Instr} (h : faultOf s i = none) :
    exec i s = .next (effect s i) := by
  cases i with
  | ret =>
    have hs : s.stack ≠ [] := by simpa [faultOf] using h
    have hpop := State.popToPc_ok (List.dropLast_append_getLast hs).symm
    simp [exec, execRet, hpop, effect, List.getLastD_eq_getLast?, List.getLast?_eq_some_getLast hs]
  | call nnn =>
    have hs : s.stack.length < 16 := by simpa [faultOf] using h
    simp [exec, execCall, State.push_ok _ hs, effect, State.setPc]
  | skp x | sknp x =>
    have hx : (s.getV x).toNat < 16 := by simpa [faultOf, Nat.lt_succ_iff] using h
    simp [exec, execSkp, execSknp, keyIndex_ok hx, effect, Fin.ofNat, Nat.mod_eq_of_lt hx]
  | ldFVx x =>
    have hx : (s.getV x).toNat ≤ 15 := by simpa [faultOf] using h
    simp [exec, execLdFVx, State.glyphAddr_ok hx, effect]
  | ldBVx x =>
    have hi : s.index.toNat < 4094 := by simpa [faultOf] using h
    exact execLdBVx_ok x (Nat.add_lt_add_right hi 2)
  | ldMemVx x => exact execLdMemVx_ok x (by simpa [faultOf, memSize] using h)
  | ldVxMem x => exact execLdVxMem_ok x (by simpa [faultOf, memSize] using h)
  | drw x y n => exact execDrw_ok x y n (by simpa [faultOf, memSize] using h)
  | _ => rfl

/-- Everything an instruction can answer. -/
theorem exec_cases {s t : State} {i : Instr} (h : exec i s = .next t) :
    (∃ f, faultOf s i = some f ∧ t = s.raise f) ∨ (faultOf s i = none ∧ t = effect s i) := by
  cases hf : faultOf s i with
  | some f =>
    rw [exec_of_faultOf_some hf] at h
    injection h with h
    exact .inl ⟨f, rfl, h.symm⟩
  | none =>
    rw [exec_of_faultOf_none hf] at h
    injection h with h
    exact .inr ⟨rfl, h.symm⟩

/-! ### What an effect leaves alone -/

section

variable (s : State)

@[simp] theorem effect_config (i : Instr) : (effect s i).config = s.config := by
  cases i <;> simp [effect]

@[simp] theorem effect_schedule (i : Instr) : (effect s i).schedule = s.schedule := by
  cases i <;> simp [effect]

@[simp] theorem effect_key (i : Instr) : (effect s i).key = s.key := by
  cases i <;> simp [effect]

theorem effect_stack {i : Instr} (hc : ∀ nnn, i ≠ .call nnn) (hr : i ≠ .ret) :
    (effect s i).stack = s.stack := by
  cases i with
  | call nnn => exact absurd rfl (hc nnn)
  | ret => exact absurd rfl hr
  | _ => simp [effect]

theorem effect_dt {i : Instr} (h : ∀ x, i ≠ .ldDtVx x) : (effect s i).dt = s.dt := by
  cases i with
  | ldDtVx x => exact absurd rfl (h x)
  | _ => simp [effect]

theorem effect_st {i : Instr} (h : ∀ x, i ≠ .ldStVx x) : (effect s i).st = s.st := by
  cases i with
  | ldStVx x => exact absurd rfl (h x)
  | _ => simp [effect]

theorem effect_fb {i : Instr} (hc : i ≠ .cls) (hd : ∀ x y n, i ≠ .drw x y n) :
    (effect s i).fb = s.fb := by
  cases i with
  | cls => exact absurd rfl hc
  | drw x y n => exact absurd rfl (hd x y n)
  | _ => simp [effect]

theorem effect_mem {i : Instr} (hb : ∀ x, i ≠ .ldBVx x) (hm : ∀ x, i ≠ .ldMemVx x) :
    (effect s i).mem = s.mem := by
  cases i with
  | ldBVx x => exact absurd rfl (hb x)
  | ldMemVx x => exact absurd rfl (hm x)
  | _ => simp [effect]

theorem effect_latch {i : Instr} (h : ∀ x, i ≠ .ldVxK x) : (effect s i).latch = s.latch := by
  cases i with
  | ldVxK x => exact absurd rfl (h x)
  | _ => simp [effect]

theorem effect_mode {i : Instr} (h : ∀ x, i ≠ .ldVxK x) : (effect s i).mode = s.mode := by
  cases i with
  | ldVxK x => exact absurd rfl (h x)
  | _ => simp [effect]

theorem indexAfterBlock_unchanged {s : State} (h : s.config.loadStoreIMode = .unchanged) (x : Reg) :
    s.indexAfterBlock x = s.index := by
  simp [State.indexAfterBlock, h]

theorem effect_index {i : Instr} (hl : ∀ nnn, i ≠ .ldI nnn) (ha : ∀ x, i ≠ .addIVx x)
    (hf : ∀ x, i ≠ .ldFVx x) (hb : s.config.loadStoreIMode = .unchanged ∨
      (∀ x, i ≠ .ldMemVx x) ∧ (∀ x, i ≠ .ldVxMem x)) : (effect s i).index = s.index := by
  cases i with
  | ldI nnn => exact absurd rfl (hl nnn)
  | addIVx x => exact absurd rfl (ha x)
  | ldFVx x => exact absurd rfl (hf x)
  | ldMemVx x => exact indexAfterBlock_unchanged (hb.resolve_right fun h => h.1 x rfl) x
  | ldVxMem x => exact indexAfterBlock_unchanged (hb.resolve_right fun h => h.2 x rfl) x
  | _ => simp [effect]

theorem effect_getV {i : Instr} {r : Reg} (h : writesReg i r = false) :
    (effect s i).getV r = s.getV r := by
  cases i with
  | ldImm x | addImm x | ldReg x | orReg x | andReg x | xorReg x | rnd x | ldVxDt x =>
    have hr : r ≠ x := by simpa [writesReg] using h
    simp [effect, hr]
  | addReg x | subReg x | subnReg x | shr x | shl x =>
    obtain ⟨hr, hF⟩ : r ≠ x ∧ r ≠ regF := by simpa [writesReg, regF] using h
    simp [effect, hr, hF]
  | drw =>
    have hF : r ≠ regF := by simpa [writesReg, regF] using h
    simp [effect, hF]
  | ldVxMem x =>
    have hr : ¬ r.val < x.val + 1 := by simpa [writesReg, Nat.lt_succ_iff] using h
    simp [effect, State.getV_eq_getElem, setRegsFrom_get, hr]
  | _ => simp [effect, State.getV]

end

end Sys2Proof.Proofs

/-! SUPPORT. The rules that hold for every instruction: when it faults and what it can change. -/

namespace Sys2Proof.Proofs

open Sys2Proof.Machine Sys2Proof.Statements

/-! ### The mode after an instruction -/

/-- An effect keeps the mode, but for Fx0A, which blocks. -/
theorem effect_mode_cases (s : State) (i : Instr) :
    (effect s i).mode = s.mode ∨ ∃ x, i = .ldVxK x ∧ (effect s i).mode = .blocked x := by
  by_cases h : ∃ x, i = .ldVxK x
  · obtain ⟨x, rfl⟩ := h
    exact .inr ⟨x, rfl, rfl⟩
  · exact .inl (effect_mode s (not_exists.mp h))

theorem effect_not_faulted {s : State} (hm : s.mode = .running) (i : Instr) (f : FaultRecord) :
    (effect s i).mode ≠ .faulted f := by
  obtain h | ⟨x, -, h⟩ := effect_mode_cases s i
  · simp [h, hm]
  · simp [h]

/-- An instruction that ends in Faulted from Running left everything else as it was (R205). -/
theorem exec_faulted {s t : State} {i : Instr} {f : FaultRecord} (hm : s.mode = .running)
    (h : exec i s = .next t) (hf : t.mode = .faulted f) :
    f.pc = s.pc ∧ t = { s with mode := .faulted f } := by
  obtain ⟨g, -, rfl⟩ | ⟨-, rfl⟩ := exec_cases h
  · obtain rfl : ⟨g, s.pc⟩ = f := by simpa using hf
    exact ⟨rfl, rfl⟩
  · exact absurd hf (effect_not_faulted hm i f)

/-! ### The bytes an instruction stores -/

@[simp] theorem bcdDigits_length (b : Byte) : (bcdDigits b).length = 3 := rfl

/-- Outside the bytes stored to, a range written inside memory leaves every byte as it was. -/
theorem read_writeAll_outside {m : Memory} (hm : m.wf = true) {a c : Nat} {bs : List Byte}
    (ha : a + bs.length ≤ memSize) (hc : c < a ∨ a + bs.length ≤ c) :
    (m.writeAll a bs).read c = m.read c := by
  rw [Memory.read_writeAll hm ha, if_neg (by omega)]

theorem index_of_faultOf_ldBVx {s : State} {x : Reg} (h : faultOf s (.ldBVx x) = none) :
    s.index.toNat + (bcdDigits (s.getV x)).length ≤ memSize := by
  have hi : s.index.toNat < 4094 := by simpa [faultOf] using h
  simp only [bcdDigits_length, memSize]
  omega

theorem index_of_faultOf_ldMemVx {s : State} {x : Reg} (h : faultOf s (.ldMemVx x) = none) :
    s.index.toNat + (s.regsUpTo x).length ≤ memSize := by
  have hi : s.index.toNat + x.val < 4096 := by simpa [faultOf] using h
  simp only [State.regsUpTo_length, memSize]
  omega

/-! ### The obligations -/

/-- Settles O12: a fault and an effect are both next states. -/
theorem everyInstructionAnswersNextState : Obligations.EveryInstructionAnswersNextState := by
  intro i s
  cases hf : faultOf s i with
  | some f => exact ⟨_, exec_of_faultOf_some hf⟩
  | none => exact ⟨_, exec_of_faultOf_none hf⟩

/-- Settles O14: the meanings fault exactly where the table does, and an effect is not Faulted. -/
theorem instructionFaultsExactlyAsListed : Obligations.InstructionFaultsExactlyAsListed :=
  fun i _ hm => ⟨fun _ hf => exec_of_faultOf_some hf,
    fun hf => ⟨_, exec_of_faultOf_none hf, effect_not_faulted hm i⟩⟩

/-- Settles O16: a fault writes no register, and an effect only those of the table. -/
theorem registersChangeOnlyByTheirWriters : Obligations.RegistersChangeOnlyByTheirWriters := by
  intro i s t r h hw
  obtain ⟨f, -, rfl⟩ | ⟨-, rfl⟩ := exec_cases h
  · exact State.getV_raise s f r
  · exact effect_getV s hw

/-- Settles O17: a fault writes no byte, and of the effects only those of Fx33 and Fx55, each at the
range it stores to. -/
theorem memoryChangesOnlyWhereStored : Obligations.MemoryChangesOnlyWhereStored := by
  intro i s t hwf h a ha
  obtain ⟨f, -, rfl⟩ | ⟨hf, rfl⟩ := exec_cases h
  · rw [State.raise_mem]
  · cases i with
    | ldBVx x => exact read_writeAll_outside hwf (index_of_faultOf_ldBVx hf) ha
    | ldMemVx x =>
      refine read_writeAll_outside hwf (index_of_faultOf_ldMemVx hf) ?_
      rwa [State.regsUpTo_length]
    | _ => rw [effect_mem s (by simp) (by simp)]

/-- Settles O18: a fault changes none of these, and an effect each only in its writers. -/
theorem stackIndexAndTimersChangeOnlyByTheirWriters :
    Obligations.StackIndexAndTimersChangeOnlyByTheirWriters := by
  intro i s t h
  obtain ⟨f, -, rfl⟩ | ⟨-, rfl⟩ := exec_cases h
  · simp
  · exact ⟨effect_stack s, effect_index s, effect_dt s, effect_st s, effect_key s i⟩

/-- Settles O21: a fault records the pc of the instruction, and an effect keeps the mode or
blocks. -/
theorem modeChangesOnlyByWaitOrFault : Obligations.ModeChangesOnlyByWaitOrFault := by
  intro i s t h
  obtain ⟨f, -, rfl⟩ | ⟨-, rfl⟩ := exec_cases h
  · exact .inr (.inr ⟨⟨f, s.pc⟩, State.raise_mode s f, rfl⟩)
  · exact (effect_mode_cases s i).imp_right .inl

end Sys2Proof.Proofs

/-! SUPPORT. The Step of the CPU, the events of the other agents and the order they come in
(60_exceptions.md R205 to R220, 30_encoding.md R85). -/

namespace Sys2Proof.Proofs

open Sys2Proof.Machine Sys2Proof.Statements

/-! ### Tick -/

theorem tick_of_faulted {s : State} {f : FaultRecord} (h : s.mode = .faulted f) : s.tick = s := by
  rw [State.tick, h]

/-- Whatever the mode, a Tick writes DT and ST alone. -/
theorem tick_frame (s : State) : ∃ d e, s.tick = { s with dt := d, st := e } := by
  by_cases h : ∃ f, s.mode = .faulted f
  · obtain ⟨f, hf⟩ := h
    exact ⟨s.dt, s.st, tick_of_faulted hf⟩
  · exact ⟨_, _, State.tick_eq (not_exists.mp h)⟩

@[simp] theorem tick_schedule (s : State) : s.tick.schedule = s.schedule := by
  obtain ⟨d, e, h⟩ := tick_frame s
  rw [h]

@[simp] theorem tick_mode (s : State) : s.tick.mode = s.mode := by
  obtain ⟨d, e, h⟩ := tick_frame s
  rw [h]

theorem unchangedExcept_dt_st_tick (s : State) : UnchangedExcept [.dt, .st] s s.tick := by
  obtain ⟨d, e, h⟩ := tick_frame s
  rw [h]
  simp [UnchangedExcept, State.getV]

theorem unchangedExcept_trans {ps : List Part} {s t u : State} (h : UnchangedExcept ps s t)
    (h' : UnchangedExcept ps t u) : UnchangedExcept ps s u := by
  simp only [UnchangedExcept] at h h' ⊢
  simp_all

theorem tick_dt_toNat {s : State} (h : ∀ f, s.mode ≠ .faulted f) :
    s.tick.dt.toNat = s.dt.toNat - 1 := by
  rw [State.tick_eq h, countDown_toNat]

theorem tick_st_toNat {s : State} (h : ∀ f, s.mode ≠ .faulted f) :
    s.tick.st.toNat = s.st.toNat - 1 := by
  rw [State.tick_eq h, countDown_toNat]

/-! ### KeySample and set_key -/

theorem unchangedExcept_key_latch_keySample (s : State) (k16 : Keypad) :
    UnchangedExcept [.key, .latch] s (s.keySample k16) := by
  simp [UnchangedExcept]

/-- The lowest key that went down, named by the key itself. -/
theorem lowestPressed_eq_some {old new : Keypad} {k : Key} :
    lowestPressed old new = some k ↔ (old.get k = false ∧ new.get k = true) ∧
      ∀ j, j < k → ¬ (old.get j = false ∧ new.get j = true) := by
  rw [lowestPressed, ← Fin.find?_eq_find?_finRange, Fin.find?_eq_some_iff]
  simp

theorem lowestPressed_eq_none {old new : Keypad} :
    lowestPressed old new = none ↔ ∀ k, ¬ (old.get k = false ∧ new.get k = true) := by
  rw [lowestPressed, ← Fin.find?_eq_find?_finRange, Fin.find?_eq_none_iff]
  simp

theorem latchAfter_waiting {s : State} {x : Reg} (hm : s.mode = .blocked x) (hl : s.latch = none)
    (k16 : Keypad) : s.latchAfter k16 = lowestPressed s.key k16 := by
  rw [State.latchAfter, hm, hl]

theorem latchAfter_not_waiting {s : State} (h : (∀ x, s.mode ≠ .blocked x) ∨ s.latch ≠ none)
    (k16 : Keypad) : s.latchAfter k16 = s.latch := by
  unfold State.latchAfter
  split
  · next hm hl => exact absurd hl (h.resolve_left fun hb => hb _ hm)
  · next hl => exact hl.symm
  · rfl
  · rfl

theorem setKey_of_lt (s : State) {index : Nat} (h : index < 16) (down : Bool) :
    s.setKey index down = s.keySample (s.key.set index down h) := dif_pos h

theorem setKey_of_le (s : State) {index : Nat} (h : 16 ≤ index) (down : Bool) :
    s.setKey index down = s := dif_neg (Nat.not_lt.mpr h)

/-! ### The events of the other agents, but for Reset -/

/-- Tick, KeySample, set_key and Snapshot write DT, ST, the keypad and the latch alone. -/
theorem event_frame {e : Event} (hs : e ≠ .step) (hr : ∀ rom, e ≠ .reset rom) (s : State) :
    ∃ d t k l, event e s = .next { s with dt := d, st := t, key := k, latch := l } := by
  cases e with
  | step => exact absurd rfl hs
  | reset rom => exact absurd rfl (hr rom)
  | tick =>
    obtain ⟨d, t, h⟩ := tick_frame s
    exact ⟨d, t, s.key, s.latch, congrArg _ h⟩
  | keySample k16 => exact ⟨s.dt, s.st, k16, s.latchAfter k16, rfl⟩
  | setKey index down =>
    by_cases h : index < 16
    · exact ⟨s.dt, s.st, _, _, congrArg _ (setKey_of_lt s h down)⟩
    · exact ⟨s.dt, s.st, s.key, s.latch, congrArg _ (setKey_of_le s (Nat.not_lt.mp h) down)⟩
  | snapshot => exact ⟨s.dt, s.st, s.key, s.latch, rfl⟩

/-! ### The order of the events -/

theorem run_succ_of_step {M : Host.Core} {s t : M.State} (h : M.step s = .next t) (n : Nat) :
    M.run (n + 1) s = M.run n t := by
  rw [Host.Core.run, h]

/-- A host that issues one event for ever: as many of it as there are steps. -/
theorem run_of_cycle_single {e : Event} {g : State → State} (he : ∀ u, event e u = .next (g u))
    (hg : ∀ u, (g u).schedule = u.schedule) (n : Nat) {s : State} (hp : s.schedule.pending = [])
    (hc : s.schedule.course = .cycle e []) : core.run n s = .next (g^[n] s) := by
  induction n generalizing s with
  | zero => rfl
  | succ n ih =>
    have hstep : step s = .next (g s) := by
      rw [step_cycle hp hc, ← hp]
      exact he s
    exact (run_succ_of_step (M := core) hstep n).trans (ih (by rw [hg, hp]) (by rw [hg, hc]))

theorem step_of_next_step {s : State} (h : s.schedule.next.1 = .step) :
    step s = cpuStep { s with schedule := s.schedule.next.2 } := by
  rw [step, h]
  rfl

/-! ### The Step of the CPU -/

theorem cpuStep_of_running_below_last {s : State} (hm : s.mode = .running) (hpc : s.pc ≠ 0xFFF) :
    cpuStep s = exec (decode s.config
      (wordOfBytes (s.mem.read s.pc.toNat) (s.mem.read (s.pc.toNat + 1)))) s := by
  rw [cpuStep_running hm, State.fetchWord_ok hpc]

theorem cpuStep_waiting {s : State} {x : Reg} (hm : s.mode = .blocked x) (hl : s.latch = none) :
    cpuStep s = .next s := by
  rw [cpuStep_blocked hm, hl]

theorem cpuStep_latched {s : State} {x : Reg} {k : Key} (hm : s.mode = .blocked x)
    (hl : s.latch = some k) : cpuStep s = .next (s.completeWait x k) := by
  rw [cpuStep_blocked hm, hl]

theorem unchangedExcept_completeWait (s : State) (x : Reg) (k : Key) :
    UnchangedExcept [.v, .pc, .latch, .mode] s (s.completeWait x k) := by
  simp [UnchangedExcept]

/-! ### The framebuffer after an instruction -/

theorem exec_fb {s t : State} {i : Instr} (h : exec i s = .next t) (hc : i ≠ .cls)
    (hd : ∀ x y n, i ≠ .drw x y n) : t.fb = s.fb := by
  obtain ⟨f, -, rfl⟩ | ⟨-, rfl⟩ := exec_cases h
  · exact State.raise_fb s f
  · exact effect_fb s hc hd

/-! ### The obligations -/

/-- Settles O5: the event is a Step, whose fetch below the last address gives the two bytes
at pc. -/
theorem stepRunsDecodedInstruction : Obligations.StepRunsDecodedInstruction := by
  intro s hm hpc
  refine ⟨fun h => ?_, fun hp hc => ?_⟩
  · rw [step_of_next_step h]
    exact cpuStep_of_running_below_last (s := { s with schedule := s.schedule.next.2 }) hm hpc
  · rw [step_steps hp hc, cpuStep_of_running_below_last hm hpc]

/-- Settles O6: the second byte of the word lies outside memory. -/
theorem fetchAtLastAddressFaults : Obligations.FetchAtLastAddressFaults := by
  intro s hm hpc
  rw [cpuStep_running hm, State.fetchWord_error hpc]
  rfl

/-- Settles O7: the meanings of both in Faulted. -/
theorem faultedStepAndTickChangeNothing : Obligations.FaultedStepAndTickChangeNothing :=
  fun _ _ h => ⟨cpuStep_stopped h, tick_of_faulted h⟩

/-- Settles O8: with a key latched the Step is `completeWait`. -/
theorem blockedStepWaitsThenCompletes : Obligations.BlockedStepWaitsThenCompletes := by
  intro s x hm
  refine ⟨cpuStep_waiting hm, fun k hl => ⟨_, cpuStep_latched hm hl, ?_, fun r hr => ?_, rfl, rfl,
    rfl, unchangedExcept_completeWait s x k⟩⟩
  · rw [State.getV_completeWait, if_pos rfl]
  · rw [State.getV_completeWait, if_neg hr]

/-- Settles O9: the step lemmas of the schedule, and an induction on the number of steps for a cycle
of one event, which leaves the schedule as it is. -/
theorem scheduledEventIsNextStep : Obligations.ScheduledEventIsNextStep :=
  fun _ => ⟨fun _ _ => step_pending, fun hp => ⟨fun _ _ => step_cycle hp, step_free hp,
    fun n => run_of_cycle_single (fun _ => rfl) tick_schedule n hp,
    fun n k16 => run_of_cycle_single (fun _ => rfl) (fun u => u.keySample_schedule k16) n hp⟩⟩

/-- Settles O15: from Running the fetch raised the fault, or the instruction did. -/
theorem faultingStepDiscardsItsWrites : Obligations.FaultingStepDiscardsItsWrites := by
  intro s t f hm h hf
  obtain ⟨g, hg, -⟩ | ⟨x, hx, -⟩ | ⟨x, k, hx, -⟩ | ⟨g, -, -, rfl⟩ | ⟨w, -, -, hw⟩ := cpuStep_cases h
  · simp [hm] at hg
  · simp [hm] at hx
  · simp [hm] at hx
  · obtain rfl : ⟨g, s.pc⟩ = f := by simpa using hf
    exact ⟨rfl, rfl⟩
  · exact exec_faulted hm hw hf

/-- Settles O19: the case analysis of a Step, of an instruction and of the other events. -/
theorem framebufferChangesOnlyByDisplayInstructions :
    Obligations.FramebufferChangesOnlyByDisplayInstructions := by
  refine ⟨fun i s t h => exec_fb h, fun s t h hor => ?_, fun e s t hs hr h => ?_⟩
  · obtain ⟨f, -, rfl⟩ | ⟨x, -, -, rfl⟩ | ⟨x, k, -, -, rfl⟩ | ⟨f, -, -, rfl⟩ | ⟨w, hm, hw, h⟩ :=
      cpuStep_cases h
    · rfl
    · rfl
    · exact State.completeWait_fb s x k
    · exact State.raise_fb s f
    · obtain ⟨f, hf⟩ | hd := hor
      · obtain ⟨-, rfl⟩ := exec_faulted hm h hf
        rfl
      · obtain ⟨hc, hd⟩ := hd w hm hw
        exact exec_fb h hc hd
  · obtain ⟨d, u, k, l, hn⟩ := event_frame hs hr s
    obtain rfl := Host.Outcome.next.inj (hn.symm.trans h)
    rfl

/-- Settles O20: each of these events writes those four fields alone. -/
theorem hostEventsChangeOnlyTimersAndKeys : Obligations.HostEventsChangeOnlyTimersAndKeys := by
  intro e s hs hr
  obtain ⟨d, t, k, l, h⟩ := event_frame hs hr s
  exact ⟨_, h, by simp [UnchangedExcept, State.getV]⟩

/-- Settles O49: the sample's latch is the lowest press, found by a search from key 0 upwards. -/
theorem keySampleLatchesLowestPress : Obligations.KeySampleLatchesLowestPress := by
  intro s k16
  refine ⟨rfl, unchangedExcept_key_latch_keySample s k16, fun x hm hl => ?_,
    fun h => latchAfter_not_waiting h k16⟩
  rw [State.keySample_latch, latchAfter_waiting hm hl]
  exact ⟨fun k hup hdown hlow => lowestPressed_eq_some.mpr ⟨⟨hup, hdown⟩, hlow⟩,
    lowestPressed_eq_none.mpr⟩

/-- Settles O50: the sample is the keypad with one entry set. -/
theorem setKeyIsOneKeySample : Obligations.SetKeyIsOneKeySample := by
  refine fun s index down => ⟨fun h => ⟨s.key.set index down h, fun k hk => ?_, fun k hk => ?_,
    setKey_of_lt s h down⟩, fun h => setKey_of_le s h down⟩
  · subst hk
    exact Vector.getElem_set_self h
  · exact Vector.getElem_set_ne h k.isLt (Ne.symm hk)

/-- Settles O52, by induction on the number of Ticks. -/
theorem ticksCountTimersDownToZero : Obligations.TicksCountTimersDownToZero := by
  intro n
  induction n with
  | zero => exact fun s _ => ⟨rfl, rfl, by simp [UnchangedExcept]⟩
  | succ n ih =>
    intro s hm
    obtain ⟨hdt, hst, hrest⟩ := ih s.tick (by rwa [tick_mode])
    rw [Function.iterate_succ_apply, hdt, hst, tick_dt_toNat hm, tick_st_toNat hm]
    exact ⟨by omega, by omega, unchangedExcept_trans (unchangedExcept_dt_st_tick s) hrest⟩

/-- Settles O53: no event of these asks whether the core waits, but the CPU's own. -/
theorem blockedCoreStillTakesEvents : Obligations.BlockedCoreStillTakesEvents := by
  intro s x hm
  have hf : ∀ f, s.mode ≠ .faulted f := by simp [hm]
  exact ⟨⟨⟨s.tick, rfl, tick_dt_toNat hf, tick_st_toNat hf, unchangedExcept_dt_st_tick s⟩,
    fun k16 => ⟨s.keySample k16, rfl, rfl, unchangedExcept_key_latch_keySample s k16⟩,
    rfl, rfl, hm, soundActive_iff s⟩, cpuStep_waiting hm⟩

end Sys2Proof.Proofs

/-! SUPPORT. Reset, and the invariant of the machine (70_reset_and_hazards.md section 1,
10_state.md section 12). -/

namespace Sys2Proof.Proofs

open Sys2Proof.Machine Sys2Proof.Statements

/-! ### The loads of Reset -/

theorem loadBytes_fits (m : Memory) {offset : Nat} {bytes : List Byte}
    (h : offset + bytes.length ≤ memSize) :
    loadBytes m offset bytes = .ok (m.writeAll offset bytes) := if_pos h

/-- With an admitted configuration and a ROM that fits both loads succeed, and every byte is the
ROM's, else the font's, else 0x00. -/
theorem resetMemory_of_fits {c : Config} {rom : List Byte} (hc : ConfigOk c)
    (hr : rom.length ≤ 3584) : ∃ m, resetMemory c rom = .ok m ∧ ∀ a, m.read a =
      if 0x200 ≤ a ∧ a < 0x200 + rom.length then rom.getD (a - 0x200) 0
      else if c.fontBase.toNat ≤ a ∧ a < c.fontBase.toNat + 80 then
        c.fontData.getD (a - c.fontBase.toNat) 0
      else 0 := by
  obtain ⟨hbase, hlen⟩ := hc
  have hfont := loadBytes_fits zeroedMemory (offset := c.fontBase.toNat) (bytes := c.fontData)
    (by simp only [memSize]; omega)
  obtain ⟨hfwf, hfread⟩ := loadBytes_ok zeroedMemory_wf hfont
  have hrom := loadBytes_fits (zeroedMemory.writeAll c.fontBase.toNat c.fontData)
    (offset := loadAddr) (bytes := rom) (by simp only [memSize, loadAddr]; omega)
  obtain ⟨-, hrread⟩ := loadBytes_ok hfwf hrom
  refine ⟨(zeroedMemory.writeAll c.fontBase.toNat c.fontData).writeAll loadAddr rom, ?_,
    fun a => ?_⟩
  · rw [resetMemory, hfont]
    exact hrom
  · rw [hrread, hfread, zeroedMemory_read, hlen]
    rfl

theorem event_reset_of_fits {s : State} {rom : List Byte} {m : Memory} (hr : rom.length ≤ 3584)
    (hm : resetMemory s.config rom = .ok m) : event (.reset rom) s = .next (s.resetAll m) := by
  have hrom : ¬ memSize - loadAddr < rom.length := Nat.not_lt.mpr hr
  simp only [event, State.resetWith, if_neg hrom, hm, Except.map]

theorem event_reset_of_oversized (s : State) {rom : List Byte} (hr : 3584 < rom.length) :
    event (.reset rom) s = .refused (.loadError 0x200 rom.length) := by
  have hrom : memSize - loadAddr < rom.length := hr
  simp only [event, State.resetWith, if_pos hrom]
  rfl

/-- A Reset that answers a next state gave the reset values over the memory of its loads. -/
theorem event_reset_cases {s t : State} {rom : List Byte} (h : event (.reset rom) s = .next t) :
    ∃ m, resetMemory s.config rom = .ok m ∧ t = s.resetAll m := by
  by_cases hr : rom.length ≤ 3584
  · cases hm : resetMemory s.config rom with
    | ok m =>
      rw [event_reset_of_fits hr hm] at h
      injection h with h
      exact ⟨m, rfl, h.symm⟩
    | error r =>
      have hrom : ¬ memSize - loadAddr < rom.length := Nat.not_lt.mpr hr
      simp only [event, State.resetWith, if_neg hrom, hm, Except.map] at h
      cases h
  · rw [event_reset_of_oversized s (Nat.not_le.mp hr)] at h
    cases h

theorem getV_of_v_replicate {s : State} (h : s.v = Vector.replicate 16 0) (r : Reg) :
    s.getV r = 0 := by
  rw [State.getV_eq_getElem, h, Vector.getElem_replicate]

theorem key_replicate_get (k : Key) : (Vector.replicate 16 false : Keypad).get k = false :=
  Vector.getElem_replicate k.isLt

/-! ### The invariant, piece by piece -/

theorem modeAgrees_of_running {s : State} (h : s.mode = .running) :
    s.modeAgrees = (s.latch == none) := by
  rw [State.modeAgrees, h]

theorem modeAgrees_of_blocked {s : State} {x : Reg} (h : s.mode = .blocked x) :
    s.modeAgrees = true := by
  rw [State.modeAgrees, h]

theorem modeAgrees_of_faulted {s : State} {f : FaultRecord} (h : s.mode = .faulted f) :
    s.modeAgrees = (s.latch == none && f.agrees s) := by
  rw [State.modeAgrees, h]

/-- The record of a fault of the table agrees with the state it was raised in. -/
theorem faultOf_agrees {s : State} {i : Instr} {f : Fault} (hs : s.stack.length ≤ stackDepth)
    (h : faultOf s i = some f) : FaultRecord.agrees ⟨f, s.pc⟩ s = true := by
  cases i with
  | ret =>
    obtain ⟨he, ⟨⟩⟩ := Option.ite_none_right_eq_some.mp h
    simp [FaultRecord.agrees, he]
  | call =>
    obtain ⟨hf, ⟨⟩⟩ := Option.ite_none_right_eq_some.mp h
    simp [FaultRecord.agrees, Nat.le_antisymm hs hf]
  | skp | sknp | ldFVx =>
    obtain ⟨hx, ⟨⟩⟩ := Option.ite_none_right_eq_some.mp h
    simpa [FaultRecord.agrees] using hx
  | ldBVx | ldMemVx | ldVxMem | drw =>
    obtain ⟨-, ⟨⟩⟩ := Option.ite_none_right_eq_some.mp h
    simp [FaultRecord.agrees]
  | _ => cases h

theorem fetchWord_error_cases {s : State} {f : Fault} (h : s.fetchWord = .error f) :
    f = .memoryOutOfBounds 0x1000 := by
  by_cases hpc : s.pc = 0xFFF
  · rw [State.fetchWord_error hpc] at h
    injection h with h
    exact h.symm
  · rw [State.fetchWord_ok hpc] at h
    cases h

theorem effect_mem_wf {s : State} {i : Instr} (hm : s.mem.wf = true) (hf : faultOf s i = none) :
    (effect s i).mem.wf = true := by
  cases i with
  | ldBVx x => exact Memory.wf_writeAll hm (index_of_faultOf_ldBVx hf)
  | ldMemVx x => exact Memory.wf_writeAll hm (index_of_faultOf_ldMemVx hf)
  | _ => rwa [effect_mem s (by simp) (by simp)]

theorem effect_stack_length {s : State} {i : Instr} (hs : s.stack.length ≤ stackDepth)
    (hf : faultOf s i = none) : (effect s i).stack.length ≤ stackDepth := by
  cases i with
  | ret =>
    rw [effect, List.length_dropLast]
    exact (Nat.sub_le _ 1).trans hs
  | call nnn =>
    have hlt : s.stack.length < 16 := by simpa [faultOf] using hf
    rw [effect, List.length_append]
    exact hlt
  | _ => rwa [effect_stack s (by simp) (by simp)]

theorem effect_modeAgrees {s : State} (hm : s.mode = .running) (ha : s.modeAgrees = true)
    (i : Instr) : (effect s i).modeAgrees = true := by
  by_cases h : ∃ x, i = .ldVxK x
  · obtain ⟨x, rfl⟩ := h
    rfl
  · have hk := not_exists.mp h
    rwa [modeAgrees_of_running ((effect_mode s hk).trans hm), effect_latch s hk,
      ← modeAgrees_of_running hm]

/-! ### The invariant is kept -/

/-- The invariant reads nothing of the schedule. -/
theorem inv_withSchedule {s : State} (h : s.Inv) (o : Schedule) :
    State.Inv { s with schedule := o } := h

/-- Raising a fault whose record agrees with the state. -/
theorem inv_raise {s : State} {f : Fault} (hm : s.mode = .running) (h : s.Inv)
    (hf : FaultRecord.agrees ⟨f, s.pc⟩ s = true) : (s.raise f).Inv := by
  obtain ⟨hmem, hstack, hconfig, hmode⟩ := h
  rw [modeAgrees_of_running hm] at hmode
  refine ⟨hmem, hstack, hconfig, ?_⟩
  rw [modeAgrees_of_faulted (State.raise_mode s f)]
  exact Bool.and_eq_true_iff.mpr ⟨hmode, hf⟩

theorem inv_exec {s t : State} {i : Instr} (hm : s.mode = .running) (hi : s.Inv)
    (h : exec i s = .next t) : t.Inv := by
  have ⟨hmem, hstack, hconfig, hmode⟩ := hi
  obtain ⟨f, hf, rfl⟩ | ⟨hf, rfl⟩ := exec_cases h
  · exact inv_raise hm hi (faultOf_agrees hstack hf)
  · exact ⟨effect_mem_wf hmem hf, effect_stack_length hstack hf, effect_config s i ▸ hconfig,
      effect_modeAgrees hm hmode i⟩

theorem inv_completeWait {s : State} (h : s.Inv) (x : Reg) (k : Key) :
    (s.completeWait x k).Inv := by
  obtain ⟨hmem, hstack, hconfig, -⟩ := h
  exact ⟨hmem, hstack, hconfig, rfl⟩

theorem inv_cpuStep {s t : State} (hi : s.Inv) (h : cpuStep s = .next t) : t.Inv := by
  obtain ⟨f, -, rfl⟩ | ⟨x, -, -, rfl⟩ | ⟨x, k, -, -, rfl⟩ | ⟨f, hm, hf, rfl⟩ | ⟨w, hm, -, h⟩ :=
    cpuStep_cases h
  · exact hi
  · exact hi
  · exact inv_completeWait hi x k
  · obtain rfl := fetchWord_error_cases hf
    exact inv_raise hm hi (by simp [FaultRecord.agrees])
  · exact inv_exec hm hi h

theorem inv_tick {s : State} (h : s.Inv) : s.tick.Inv := by
  obtain ⟨d, e, ht⟩ := tick_frame s
  rw [ht]
  exact h

/-- A sample sets the latch only while Blocked. -/
theorem inv_keySample {s : State} (h : s.Inv) (k16 : Keypad) : (s.keySample k16).Inv := by
  obtain ⟨hmem, hstack, hconfig, hmode⟩ := h
  refine ⟨hmem, hstack, hconfig, ?_⟩
  by_cases hb : ∃ x, s.mode = .blocked x
  · obtain ⟨x, hx⟩ := hb
    exact modeAgrees_of_blocked hx
  · have hl : (s.keySample k16).latch = s.latch :=
      latchAfter_not_waiting (.inl (not_exists.mp hb)) k16
    have hs : s.keySample k16 = { s with key := k16 } := by
      rw [State.keySample, ← State.keySample_latch, hl]
    rw [hs]
    exact hmode

theorem inv_setKey {s : State} (h : s.Inv) (index : Nat) (down : Bool) :
    (s.setKey index down).Inv := by
  by_cases hi : index < 16
  · rw [setKey_of_lt s hi]
    exact inv_keySample h _
  · rwa [setKey_of_le s (Nat.not_lt.mp hi)]

theorem inv_resetAll {s : State} (h : s.Inv) {rom : List Byte} {m : Memory}
    (hm : resetMemory s.config rom = .ok m) : (s.resetAll m).Inv := by
  obtain ⟨-, -, hconfig, -⟩ := h
  exact ⟨resetMemory_wf hm, Nat.zero_le _, hconfig, rfl⟩

theorem inv_event {s t : State} {e : Event} (hi : s.Inv) (h : event e s = .next t) : t.Inv := by
  cases e with
  | step => exact inv_cpuStep hi h
  | tick => exact Host.Outcome.next.inj h ▸ inv_tick hi
  | keySample k16 => exact Host.Outcome.next.inj h ▸ inv_keySample hi k16
  | setKey index down => exact Host.Outcome.next.inj h ▸ inv_setKey hi index down
  | snapshot => exact Host.Outcome.next.inj h ▸ hi
  | reset rom =>
    obtain ⟨m, hm, rfl⟩ := event_reset_cases h
    exact inv_resetAll hi hm

/-! ### A Step of the CPU is never refused -/

theorem cpuStep_answers_next (s : State) : ∃ t, cpuStep s = .next t := by
  cases hm : s.mode with
  | faulted f => exact ⟨s, cpuStep_stopped hm⟩
  | blocked x =>
    cases hl : s.latch with
    | none => exact ⟨s, cpuStep_waiting hm hl⟩
    | some k => exact ⟨_, cpuStep_latched hm hl⟩
  | running =>
    rw [cpuStep_running hm]
    cases s.fetchWord with
    | error f => exact ⟨_, rfl⟩
    | ok w => exact everyInstructionAnswersNextState _ s

/-! ### The obligations -/

/-- Settles O10: each event keeps the invariant, from the state the event is taken off the schedule
of. -/
theorem everyStepKeepsTheInvariant : Obligations.EveryStepKeepsTheInvariant :=
  fun _ _ hi h => inv_event (inv_withSchedule hi _) h

/-- Settles O11, by evaluation. -/
theorem resetStateMeetsTheInvariant : Obligations.ResetStateMeetsTheInvariant := by
  unfold Obligations.ResetStateMeetsTheInvariant
  decide

/-- Settles O13: of the events only Reset can be refused, and the loads of a ROM that fits succeed
under an admitted configuration. -/
theorem stepStopsOnlyOnOversizedRom : Obligations.StepStopsOnlyOnOversizedRom := by
  intro s hi hrom
  have ⟨_, _, hconfig, _⟩ := hi
  rw [step]
  cases he : s.schedule.next.1 with
  | step => exact cpuStep_answers_next _
  | reset rom =>
    have hr := hrom rom he
    obtain ⟨m, hm, -⟩ := resetMemory_of_fits hconfig hr
    exact ⟨_, event_reset_of_fits hr hm⟩
  | _ => exact ⟨_, rfl⟩

/-- Settles O56: the loads of Reset read byte by byte, and the reset values. -/
theorem resetLoadsFontAndRom : Obligations.ResetLoadsFontAndRom := by
  intro s rom hc hr
  obtain ⟨m, hm, hread⟩ := resetMemory_of_fits hc hr
  exact ⟨s.resetAll m, event_reset_of_fits hr hm, getV_of_v_replicate rfl, rfl, rfl, rfl, rfl, rfl,
    clearFb_pixel, key_replicate_get, rfl, rfl, rfl, rfl, rfl, rfl, hread⟩

/-- Settles O57: Reset compares the ROM with the room from LOAD_ADDR before it loads anything. -/
theorem oversizedRomIsRefused : Obligations.OversizedRomIsRefused :=
  fun s _ hr => event_reset_of_oversized s hr

/-- Settles O58: memory at reset lists nothing, and what it does not list is the default font. -/
theorem resetStateHoldsTheResetValues : Obligations.ResetStateHoldsTheResetValues := by
  have hfont : fontData = glyphs0to7 ++ glyphs8toF := rfl
  refine ⟨getV_of_v_replicate rfl, rfl, rfl, rfl, rfl, rfl, clearFb_pixel, key_replicate_get, rfl,
    rfl, rfl, fun a => ?_, rfl, hfont⟩
  calc State.reset.mem.read a = Memory.unlisted a := rfl
    _ = fontData.getD a 0 := if_pos (Nat.zero_le a)
    _ = (glyphs0to7 ++ glyphs8toF).getD a 0 := by rw [hfont]

end Sys2Proof.Proofs

/-! SUPPORT. Calls, returns, register skips and the jump by V0 (40_control_flow.md). -/

namespace Sys2Proof.Proofs

open Sys2Proof.Machine Sys2Proof.Statements

/-! ### The stack -/

theorem exec_ret_of_append {s : State} {below : List Addr} {a : Addr} (h : s.stack = below ++ [a]) :
    exec .ret s = .next { s with stack := below, pc := a } := by
  rw [exec, execRet, State.popToPc_ok h, finish_ok]

theorem exec_call_of_room {s : State} (nnn : Addr) (h : s.stack.length < 16) :
    exec (.call nnn) s = .next { s with stack := s.stack ++ [s.pc + 2], pc := nnn } :=
  exec_of_faultOf_none (if_neg (Nat.not_le.mpr h))

theorem unchangedExcept_pc_stack (s : State) (a : Addr) (l : List Addr) :
    UnchangedExcept [.pc, .stack] s { s with stack := l, pc := a } := by
  simp [UnchangedExcept, State.getV]

/-! ### The jump by V0 -/

theorem toNat_jumpV0Target (s : State) (nnn : Addr) :
    (s.jumpV0Target nnn).toNat = (nnn.toNat + (s.getV 0).toNat) % 4096 := by
  simp [State.jumpV0Target]

/-! ### The obligations -/

/-- Settles O22: RET is the pop of the last entry, or the fault of the empty stack. -/
theorem returnPopsOrUnderflows : Obligations.ReturnPopsOrUnderflows :=
  ⟨encodes_ret, fun s => ⟨fun below a h => ⟨_, exec_ret_of_append h, rfl, rfl,
    unchangedExcept_pc_stack s a below⟩, fun h => exec_of_faultOf_some (if_pos h)⟩⟩

/-- Settles O24: CALL is the push and the jump, or the fault of the full stack. -/
theorem callPushesNextOrOverflows : Obligations.CallPushesNextOrOverflows :=
  ⟨fun _ => encodes_of_known (by simp), fun nnn s => ⟨fun h => ⟨_, exec_call_of_room nnn h, rfl,
    rfl, unchangedExcept_pc_stack s nnn _⟩, fun h => exec_of_faultOf_some (if_pos h)⟩⟩

/-- Settles O25: the entry that RET pops is the one CALL pushed. -/
theorem callThenReturnRoundTrip : Obligations.CallThenReturnRoundTrip :=
  fun nnn _ h => ⟨_, exec_call_of_room nnn h, rfl,
    fun _ hu => ⟨_, exec_ret_of_append hu, rfl, rfl⟩⟩

/-- Settles O27: both meanings are `skipIf` of a comparison of Vx with Vy. -/
theorem registerSkips : Obligations.RegisterSkips :=
  ⟨fun _ _ => encodes_of_known (by simp), fun _ _ => encodes_of_known (by simp), fun _ _ _ =>
    ⟨skipsWhen_of_exec_eq_skipIf (exec_of_faultOf_none rfl) beq_iff_eq,
      skipsWhen_of_exec_eq_skipIf (exec_of_faultOf_none rfl) bne_iff_ne⟩⟩

/-- Settles O28: the target is a sum of 12-bit words. -/
theorem jumpV0AddsRegisterZero : Obligations.JumpV0AddsRegisterZero :=
  ⟨fun _ => encodes_of_known (by simp), fun nnn s => ⟨s.setPc (s.jumpV0Target nnn),
    exec_of_faultOf_none rfl, toNat_jumpV0Target s nnn, unchangedExcept_pc_setPc s _⟩⟩

end Sys2Proof.Proofs

/-! SUPPORT. The 8-bit ALU (41_register_alu.md). -/

namespace Sys2Proof.Proofs

open Sys2Proof.Machine Sys2Proof.Statements

/-! ### The results and the flags as numbers -/

/-- The difference of two bytes is their difference as numbers modulo 256 (R134, R138). -/
theorem byte_ofNat_difference_mod (a b : Byte) :
    BitVec.ofNat 8 ((a.toNat + 256 - b.toNat) % 256) = a - b := by
  apply BitVec.eq_of_toNat_eq
  rw [BitVec.toNat_sub, BitVec.toNat_ofNat]
  omega

theorem carryFlag_eq (a b : Byte) :
    carryFlag a b = if 255 < a.toNat + b.toNat then 1 else 0 := by
  simp [carryFlag, flagByte]

theorem noBorrowFlag_eq (a b : Byte) :
    noBorrowFlag a b = if b.toNat ≤ a.toNat then 1 else 0 := by
  simp [noBorrowFlag, flagByte]

theorem shiftRight_one_eq (b : Byte) : b >>> 1 = BitVec.ofNat 8 (b.toNat / 2) := by
  apply BitVec.eq_of_toNat_eq
  rw [BitVec.toNat_ushiftRight, BitVec.toNat_ofNat, Nat.shiftRight_eq_div_pow]
  omega

theorem toNat_and_one (b : Byte) : (b &&& 1).toNat = b.toNat % 2 := by
  rw [BitVec.toNat_and]
  exact Nat.and_one_is_mod b.toNat

theorem shiftedOutRight_eq (b : Byte) : shiftedOutRight b = BitVec.ofNat 8 (b.toNat % 2) := by
  apply BitVec.eq_of_toNat_eq
  rw [shiftedOutRight, toNat_and_one, BitVec.toNat_ofNat]
  omega

theorem shiftLeft_one_eq (b : Byte) : b <<< 1 = BitVec.ofNat 8 (2 * b.toNat % 256) := by
  apply BitVec.eq_of_toNat_eq
  rw [BitVec.toNat_shiftLeft, BitVec.toNat_ofNat, Nat.shiftLeft_eq]
  omega

theorem shiftedOutLeft_eq (b : Byte) : shiftedOutLeft b = BitVec.ofNat 8 (b.toNat / 128) := by
  apply BitVec.eq_of_toNat_eq
  have := b.isLt
  rw [shiftedOutLeft, toNat_and_one, BitVec.toNat_ushiftRight, BitVec.toNat_ofNat,
    Nat.shiftRight_eq_div_pow]
  omega

theorem shiftOperand_eq {s : State} {x y : Reg} {src : Byte}
    (hx : s.config.shiftSource = .vx → src = s.getV x)
    (hy : s.config.shiftSource = .vy → src = s.getV y) : s.shiftOperand x y = src := by
  rw [State.shiftOperand]
  cases h : s.config.shiftSource with
  | vx => exact (hx h).symm
  | vy => exact (hy h).symm

/-! ### The write of a register and then the flag -/

/-- Advancing pc and writing Vx, then VF, is all that `SetsThenFlag` allows. -/
theorem setsThenFlag_advance_setVThenFlag (x : Reg) (b flag : Byte) (s : State) :
    SetsThenFlag x b flag s (s.advance.setVThenFlag x b flag) := by
  refine ⟨?_, fun hx => ?_, fun r hr hF => ?_, ?_, ?_⟩
  · simp [regF]
  · simp [regF, hx]
  · simp [regF, hr, hF]
  · simp
  · simp [UnchangedExcept]

/-! ### The obligations -/

/-- Settles O30: each meaning writes one register, with a byte computed bit by bit. -/
theorem registerCopyAndLogic : Obligations.RegisterCopyAndLogic :=
  ⟨fun _ _ => encodes_of_known (by simp), fun _ _ => encodes_of_known (by simp),
    fun _ _ => encodes_of_known (by simp), fun _ _ => encodes_of_known (by simp), fun x _ s =>
    ⟨⟨_, exec_of_faultOf_none rfl, setsOnly_advance_setV x _ s⟩,
      ⟨_, _, exec_of_faultOf_none rfl, setsOnly_advance_setV x _ s, fun _ _ => BitVec.getLsbD_or⟩,
      ⟨_, _, exec_of_faultOf_none rfl, setsOnly_advance_setV x _ s, fun _ _ => BitVec.getLsbD_and⟩,
      ⟨_, _, exec_of_faultOf_none rfl, setsOnly_advance_setV x _ s, fun _ _ => BitVec.getLsbD_xor⟩⟩⟩

/-- Settles O31: the sum of bytes, then the carry. -/
theorem addSetsCarry : Obligations.AddSetsCarry := by
  refine ⟨fun _ _ => encodes_of_known (by simp), fun x y s => ⟨_, exec_of_faultOf_none rfl, ?_⟩⟩
  rw [byte_ofNat_sum_mod, ← carryFlag_eq]
  exact setsThenFlag_advance_setVThenFlag x _ _ s

/-- Settles O32: the difference of bytes, then the no-borrow flag, with the operands either way. -/
theorem subtractionsSetNoBorrow : Obligations.SubtractionsSetNoBorrow := by
  refine ⟨fun _ _ => encodes_of_known (by simp), fun _ _ => encodes_of_known (by simp), fun x y s =>
    ⟨⟨_, exec_of_faultOf_none rfl, ?_⟩, ⟨_, exec_of_faultOf_none rfl, ?_⟩⟩⟩
  all_goals
    rw [byte_ofNat_difference_mod, ← noBorrowFlag_eq]
    exact setsThenFlag_advance_setVThenFlag x _ _ s

/-- Settles O33: the shift of the operand that SHIFT_SOURCE names, then the bit it shifts out. -/
theorem shiftsSetTheBitShiftedOut : Obligations.ShiftsSetTheBitShiftedOut := by
  refine ⟨fun _ _ => encodes_of_known (by simp), fun _ _ => encodes_of_known (by simp),
    fun x y s src hx hy => ?_⟩
  obtain rfl := shiftOperand_eq hx hy
  refine ⟨⟨_, exec_of_faultOf_none rfl, ?_⟩, ⟨_, exec_of_faultOf_none rfl, ?_⟩⟩
  · rw [← shiftRight_one_eq, ← shiftedOutRight_eq]
    exact setsThenFlag_advance_setVThenFlag x _ _ s
  · rw [← shiftLeft_one_eq, ← shiftedOutLeft_eq]
    exact setsThenFlag_advance_setVThenFlag x _ _ s

/-- Settles O34: one register is written, with the draw masked, and the draw is counted. -/
theorem randomByteIsMasked : Obligations.RandomByteIsMasked := by
  refine ⟨fun _ _ => encodes_of_known (by simp), fun x kk s => ⟨_, exec_of_faultOf_none rfl, ?_,
    fun k hk => ?_, fun r hr => ?_, rfl, rfl, ?_⟩⟩
  · simp [effect]
  · simp [effect, hk]
  · simp [effect, hr]
  · simp [effect, UnchangedExcept]

end Sys2Proof.Proofs

/-! SUPPORT. The index register and the memory that it points at (42_index_memory.md,
20_memory.md). -/

namespace Sys2Proof.Proofs

open Sys2Proof.Machine Sys2Proof.Statements

/-! ### The bytes stored and loaded -/

/-- The k-th byte of a range written inside memory. -/
theorem read_writeAll_at {m : Memory} (hm : m.wf = true) {a k : Nat} {bs : List Byte}
    (ha : a + bs.length ≤ memSize) (hk : k < bs.length) :
    (m.writeAll a bs).read (a + k) = bs.getD k 0 := by
  rw [Memory.read_writeAll hm ha, if_pos (by omega), Nat.add_sub_cancel_left]

theorem toNat_bcdDigits (b : Byte) :
    ((bcdDigits b).getD 0 0).toNat = b.toNat / 100 ∧
    ((bcdDigits b).getD 1 0).toNat = b.toNat / 10 % 10 ∧
    ((bcdDigits b).getD 2 0).toNat = b.toNat % 10 := by
  simp [bcdDigits]

theorem toNat_indexAfterBlock_advance {s : State} (h : s.config.loadStoreIMode = .advance)
    (x : Reg) :
    (s.indexAfterBlock x).toNat = (s.index.toNat + x.val + 1) % 4096 := by
  rw [State.indexAfterBlock, h]
  simp [Nat.add_assoc]

/-- The registers after Fx65: those up to x hold the bytes from I, the others what they held. -/
theorem getV_effect_ldVxMem (s : State) (x r : Reg) :
    (effect s (.ldVxMem x)).getV r = if r ≤ x then s.mem.read (s.effAddr r.val) else s.getV r := by
  have hle : r ≤ x ↔ r.val < x.val + 1 := Nat.lt_succ_iff.symm
  rw [effect, State.getV_eq_getElem, State.setRegs_v, setRegsFrom_get _ _ _ _ r.isLt]
  by_cases h : r.val < x.val + 1
  · simp [hle, h, State.effAddr, List.getD]
  · simp [hle, h, State.getV_eq_getElem]

/-! ### The obligations -/

/-- Settles O36: the index is a sum of 12-bit words, and no register is written. -/
theorem addIndexWrapsWithoutFlag : Obligations.AddIndexWrapsWithoutFlag := by
  refine ⟨fun _ => encodes_of_known (by simp), fun x s => ⟨_, exec_of_faultOf_none rfl, ?_, rfl,
    unchangedExcept_index_pc_advance_setIndex _ s⟩⟩
  simp [effect]

/-- Settles O37: with the glyphs inside memory the glyph's address does not wrap. -/
theorem fontDigitPointsIAtItsGlyph : Obligations.FontDigitPointsIAtItsGlyph := by
  refine ⟨fun _ => encodes_of_known (by simp), fun x s hc => ⟨fun h => ⟨_,
    exec_of_faultOf_none (if_neg (Nat.not_lt.mpr h)), ?_, rfl,
    unchangedExcept_index_pc_advance_setIndex _ s⟩, fun h => exec_of_faultOf_some (if_pos h)⟩⟩
  obtain ⟨hbase, -⟩ := hc
  rw [effect, State.setIndex_index, BitVec.toNat_ofNat]
  omega

/-- Settles O38: the three bytes of a range written inside memory, and every byte outside it. -/
theorem decimalDigitsAreStoredAtI : Obligations.DecimalDigitsAreStoredAtI := by
  refine ⟨fun _ => encodes_of_known (by simp), fun x s hwf => ⟨fun h => ?_,
    fun h => exec_of_faultOf_some (if_pos h)⟩⟩
  have hf : faultOf s (.ldBVx x) = none := if_neg (Nat.not_le.mpr h)
  have hin := index_of_faultOf_ldBVx hf
  obtain ⟨h0, h1, h2⟩ := toNat_bcdDigits (s.getV x)
  have hread : ∀ k, k < 3 → (effect s (.ldBVx x)).mem.read (s.effAddr k) =
      (bcdDigits (s.getV x)).getD k 0 := fun k hk => read_writeAll_at hwf hin hk
  refine ⟨effect s (.ldBVx x), exec_of_faultOf_none hf, ?_, ?_, ?_,
    fun a ha => read_writeAll_outside hwf hin ha, rfl, by simp [UnchangedExcept, effect]⟩
  · rw [hread 0 (by omega), h0]
  · rw [hread 1 (by omega), h1]
  · rw [hread 2 (by omega), h2]

/-- Settles O39: the bytes of a range written inside memory are the registers, in order. -/
theorem registersAreStoredAtI : Obligations.RegistersAreStoredAtI := by
  refine ⟨fun _ => encodes_of_known (by simp), fun x s hwf => ⟨fun h => ?_,
    fun h => exec_of_faultOf_some (if_pos h)⟩⟩
  have hf : faultOf s (.ldMemVx x) = none := if_neg (Nat.not_le.mpr h)
  have hin := index_of_faultOf_ldMemVx hf
  refine ⟨effect s (.ldMemVx x), exec_of_faultOf_none hf, fun r hr => ?_, fun a ha => ?_,
    fun hu => indexAfterBlock_unchanged hu x, fun ha => toNat_indexAfterBlock_advance ha x, rfl,
    by simp [UnchangedExcept, effect]⟩
  · rw [← State.regsUpTo_getD s x r hr]
    exact read_writeAll_at hwf hin (by rw [State.regsUpTo_length]; exact Nat.lt_succ_of_le hr)
  · refine read_writeAll_outside hwf hin ?_
    rwa [State.regsUpTo_length]

/-- Settles O40: each register up to x is written with the byte at its place from I. -/
theorem registersAreLoadedFromI : Obligations.RegistersAreLoadedFromI := by
  refine ⟨fun _ => encodes_of_known (by simp), fun x s => ⟨fun h => ?_,
    fun h => exec_of_faultOf_some (if_pos h)⟩⟩
  refine ⟨effect s (.ldVxMem x), exec_of_faultOf_none (if_neg (Nat.not_le.mpr h)), fun r hr => ?_,
    fun r hr => ?_, fun hu => indexAfterBlock_unchanged hu x,
    fun ha => toNat_indexAfterBlock_advance ha x, rfl, by simp [UnchangedExcept, effect]⟩
  · rw [getV_effect_ldVxMem, if_pos hr]
  · rw [getV_effect_ldVxMem, if_neg (not_le.mpr hr)]

/-- Settles O41: the laws of one read and one write, and their bound. -/
theorem memoryPrimitivesReadAndWriteOneByte : Obligations.MemoryPrimitivesReadAndWriteOneByte :=
  fun m a b hwf => ⟨fun h => ⟨readByte_ok m h, m.write a b, if_pos h, Memory.wf_write hwf h b,
    fun c => Memory.read_write hwf a c b⟩,
    fun h => ⟨readByte_error m h, if_neg (Nat.not_lt.mpr h)⟩⟩

/-- Settles O59: the fetch after the Fx55 reads the first two of the bytes it stored. -/
theorem storedCodeIsFetchedNext : Obligations.StoredCodeIsFetchedNext := by
  intro x s hwf hi hx h
  have hf : faultOf s (.ldMemVx x) = none := if_neg (Nat.not_le.mpr h)
  have hin := index_of_faultOf_ldMemVx hf
  have hlen : (s.regsUpTo x).length = x.val + 1 := State.regsUpTo_length s x
  have hpc : (effect s (.ldMemVx x)).pc = s.index := hi.symm
  have hread : ∀ r : Reg, r ≤ x →
      (effect s (.ldMemVx x)).mem.read (s.index.toNat + r.val) = s.getV r := fun r hr => by
    rw [← State.regsUpTo_getD s x r hr]
    exact read_writeAll_at hwf hin (by rw [hlen]; exact Nat.lt_succ_of_le hr)
  refine ⟨effect s (.ldMemVx x), exec_of_faultOf_none hf, ?_⟩
  rw [State.fetchWord_ok, hpc]
  · exact congrArg₂ (fun hi lo => Except.ok (wordOfBytes hi lo))
      (hread 0 (Fin.zero_le x)) (hread 1 hx)
  · intro he
    have : s.index.toNat = 0xFFF := by rw [← hpc, he]; rfl
    omega

end Sys2Proof.Proofs

/-! SUPPORT. The draw in closed form (43_display.md sections 2 and 3). -/

namespace Sys2Proof.Proofs

open Sys2Proof.Machine Sys2Proof.Statements

/-! ### The sprite -/

/-- `spriteBitAt` by the sprite's own column and row. -/
theorem spriteBitAt_eq (s : State) (x y : Reg) (n : Nibble) (px : Fin 64) (py : Fin 32) :
    spriteBitAt s x y n px py =
      (decide (spriteCol ((s.getV x).toNat % 64) px < 8) &&
        decide (spriteRow ((s.getV y).toNat % 32) py < n.toNat) &&
        (s.mem.read (s.index.toNat + spriteRow ((s.getV y).toNat % 32) py)).getLsbD
          (7 - spriteCol ((s.getV x).toNat % 64) px)) := rfl

/-- The rows that Dxyn reads from I, as the loops of R172 use them, are lit where `spriteBitAt`
says. -/
theorem spriteLit_rows (s : State) (x y : Reg) (n : Nibble) (px : Fin 64) (py : Fin 32) :
    spriteLit ((List.range n.toNat).map fun k => s.mem.read (s.index.toNat + k))
      (spriteRow ((s.getV y).toNat % 32) py) (spriteCol ((s.getV x).toNat % 64) px) =
      spriteBitAt s x y n px py := by
  rw [spriteBitAt_eq, spriteLit, rowBit]
  by_cases h : spriteRow ((s.getV y).toNat % 32) py < n.toNat
  · simp [h]
  · simp [h]

/-- The sprite is where it was while memory, I and the two coordinates modulo the screen's sides
are. -/
theorem spriteBitAt_congr {s t : State} {x y : Reg} (hm : t.mem = s.mem) (hi : t.index = s.index)
    (hx : (t.getV x).toNat % 64 = (s.getV x).toNat % 64)
    (hy : (t.getV y).toNat % 32 = (s.getV y).toNat % 32) (n : Nibble) (px : Fin 64) (py : Fin 32) :
    spriteBitAt t x y n px py = spriteBitAt s x y n px py := by
  simp only [spriteBitAt, hm, hi, hx, hy]

/-- Writing a register modulo a multiple of a screen side leaves it the same modulo the side. -/
theorem toNat_getV_setV_mod (s : State) (x r : Reg) {m : Byte} {k : Nat} (hk : k ∣ m.toNat) :
    ((s.setV x (s.getV x % m)).getV r).toNat % k = (s.getV r).toNat % k := by
  rw [State.getV_setV]
  split
  · next h => rw [h, BitVec.toNat_umod, Nat.mod_mod_of_dvd _ hk]
  · rfl

/-- Vx may be taken modulo 64, and where y is x the row stays too, 32 being a divisor of 64. -/
theorem spriteBitAt_setV_column (s : State) (x y : Reg) (n : Nibble) (px : Fin 64) (py : Fin 32) :
    spriteBitAt (s.setV x (s.getV x % 64)) x y n px py = spriteBitAt s x y n px py :=
  spriteBitAt_congr (s.setV_mem x _) (s.setV_index x _) (toNat_getV_setV_mod s x x (by decide))
    (toNat_getV_setV_mod s x y (by decide)) n px py

/-- Vy may be taken modulo 32 where it is not Vx too. -/
theorem spriteBitAt_setV_row (s : State) {x y : Reg} (h : x ≠ y) (n : Nibble) (px : Fin 64)
    (py : Fin 32) :
    spriteBitAt (s.setV y (s.getV y % 32)) x y n px py = spriteBitAt s x y n px py :=
  spriteBitAt_congr (s.setV_mem y _) (s.setV_index y _) (by rw [State.getV_setV, if_neg h])
    (toNat_getV_setV_mod s y y (by decide)) n px py

/-! ### The draw -/

theorem exec_drw_of_fits (x y : Reg) {n : Nibble} {s : State} (h : s.index.toNat + n.toNat ≤ 4096) :
    exec (.drw x y n) s = .next (effect s (.drw x y n)) :=
  exec_of_faultOf_none (if_neg (Nat.not_lt.mpr h))

section

variable (s : State) (x y : Reg) (n : Nibble)

theorem length_spriteRows :
    ((List.range n.toNat).map fun k => s.mem.read (s.index.toNat + k)).length ≤ 32 := by
  have := n.isLt
  simp only [List.length_map, List.length_range]
  omega

theorem pixel_effect_drw (px : Fin 64) (py : Fin 32) :
    (effect s (.drw x y n)).fb.pixel px py = (s.fb.pixel px py ^^ spriteBitAt s x y n px py) := by
  rw [← spriteLit_rows]
  exact drawSprite_pixel s.fb _ _ _ (length_spriteRows s n) px py

theorem getV_effect_drw (r : Reg) (h : r ≠ 0xF) : (effect s (.drw x y n)).getV r = s.getV r :=
  effect_getV s (by simpa [writesReg] using h)

theorem flagByte_eq_one_iff (b : Bool) : flagByte b = 1 ↔ b = true := by
  cases b <;> decide

theorem flagByte_cases (b : Bool) : flagByte b = 1 ∨ flagByte b = 0 := by
  cases b <;> decide

/-- VF after a draw is 1 exactly on a collision. -/
theorem flag_effect_drw_eq_one_iff : (effect s (.drw x y n)).getV 0xF = 1 ↔
    ∃ px py, s.fb.pixel px py = true ∧ spriteBitAt s x y n px py = true := by
  simp only [← spriteLit_rows]
  rw [← drawSprite_collision s.fb _ _ _ (length_spriteRows s n), ← flagByte_eq_one_iff]
  simp [effect, regF]

theorem flag_effect_drw_cases :
    (effect s (.drw x y n)).getV 0xF = 1 ∨ (effect s (.drw x y n)).getV 0xF = 0 := by
  have h : (effect s (.drw x y n)).getV 0xF = flagByte _ := State.getV_setV _ regF regF _
  rw [h]
  exact flagByte_cases _

theorem unchangedExcept_effect_drw :
    UnchangedExcept [.fb, .v, .pc] s (effect s (.drw x y n)) := by
  simp [UnchangedExcept, effect]

end

/-- Two draws of one sprite on one screen leave one screen and one flag. -/
theorem effect_drw_congr {s t : State} {x y : Reg} {n : Nibble} (hfb : t.fb = s.fb)
    (hbit : ∀ px py, spriteBitAt t x y n px py = spriteBitAt s x y n px py) :
    (∀ px py, (effect t (.drw x y n)).fb.pixel px py = (effect s (.drw x y n)).fb.pixel px py) ∧
      (effect t (.drw x y n)).getV 0xF = (effect s (.drw x y n)).getV 0xF := by
  refine ⟨fun px py => ?_, ?_⟩
  · rw [pixel_effect_drw, pixel_effect_drw, hfb, hbit]
  · have hiff := flag_effect_drw_eq_one_iff t x y n
    simp only [hfb, hbit, ← flag_effect_drw_eq_one_iff s x y n] at hiff
    obtain h | h := flag_effect_drw_cases s x y n
    · rw [h, hiff.mpr h]
    · obtain h' | h' := flag_effect_drw_cases t x y n
      · rw [h', hiff.mp h']
      · rw [h, h']

/-! ### The obligations -/

/-- Settles O43: the loops of the draw, in the closed form of their pixels and of their
collision. -/
theorem drawXorsSpriteAndReportsCollision : Obligations.DrawXorsSpriteAndReportsCollision :=
  ⟨fun _ _ _ => encodes_of_known (by simp), fun x y n s h => ⟨effect s (.drw x y n),
    exec_drw_of_fits x y h, pixel_effect_drw s x y n, (flag_effect_drw_eq_one_iff s x y n).mpr,
    fun hno => (flag_effect_drw_cases s x y n).resolve_left
      (mt (flag_effect_drw_eq_one_iff s x y n).mp hno),
    getV_effect_drw s x y n, rfl, unchangedExcept_effect_drw s x y n⟩⟩

/-- Settles O44: one of the faults of the table. -/
theorem drawPastMemoryFaults : Obligations.DrawPastMemoryFaults :=
  fun _ _ _ _ h => exec_of_faultOf_some (if_pos h)

/-- Settles O45: the second draw's sprite is the first one's, VF being no coordinate, so each pixel
is XORed twice with one value, and a lit pixel lands on a pixel that is on where the first draw lit
it. -/
theorem drawTwiceRestoresTheFramebuffer : Obligations.DrawTwiceRestoresTheFramebuffer := by
  intro x y n s hx hy h
  have hbit := spriteBitAt_congr (t := effect s (.drw x y n)) (s := s) rfl rfl
    (congrArg (·.toNat % 64) (getV_effect_drw s x y n x hx))
    (congrArg (·.toNat % 32) (getV_effect_drw s x y n y hy)) n
  refine ⟨effect s (.drw x y n), effect (effect s (.drw x y n)) (.drw x y n),
    exec_drw_of_fits x y h, exec_drw_of_fits x y h, fun px py => ?_, ?_,
    flag_effect_drw_cases _ x y n⟩
  · rw [pixel_effect_drw, pixel_effect_drw, hbit, Bool.xor_assoc, Bool.xor_self, Bool.xor_false]
  · rw [flag_effect_drw_eq_one_iff]
    refine exists_congr fun px => exists_congr fun py => ?_
    rw [hbit, pixel_effect_drw]
    cases s.fb.pixel px py <;> cases spriteBitAt s x y n px py <;> decide

/-- Settles O46: the sprite's place depends on Vx modulo 64 and on Vy modulo 32, and 32
divides 64. -/
theorem drawCoordinatesWrap : Obligations.DrawCoordinatesWrap := by
  intro x y n s h
  obtain ⟨hxfb, hxF⟩ := effect_drw_congr (State.setV_fb s x _) (spriteBitAt_setV_column s x y n)
  refine ⟨_, _, exec_drw_of_fits x y h, exec_drw_of_fits x y h, hxfb, hxF, fun hne => ?_⟩
  exact ⟨_, exec_drw_of_fits x y h,
    effect_drw_congr (State.setV_fb s y _) (spriteBitAt_setV_row s hne n)⟩

end Sys2Proof.Proofs

/-! SUPPORT. Keys, timers, unknown words and fault kinds (44_keypad_timers.md, 45_unknown.md,
60_exceptions.md section 1). -/

namespace Sys2Proof.Proofs

open Sys2Proof.Machine Sys2Proof.Statements

/-! ### A register as a key number -/

/-- Where Vx is the number of a key, the two skips test that key. -/
theorem exec_key_skips {s : State} {x : Reg} {k : Key} (h : (s.getV x).toNat = k.val) :
    exec (.skp x) s = .next (s.skipIf (s.key.get k)) ∧
      exec (.sknp x) s = .next (s.skipIf (!s.key.get k)) := by
  have hle : ¬ 15 < (s.getV x).toNat := by omega
  have hskp : faultOf s (.skp x) = none := if_neg hle
  have hsknp : faultOf s (.sknp x) = none := if_neg hle
  have hk : Fin.ofNat 16 (s.getV x).toNat = k := by
    rw [h]
    exact Fin.ofNat_val_eq_self k
  rw [exec_of_faultOf_none hskp, exec_of_faultOf_none hsknp, effect, effect, hk]
  exact ⟨rfl, rfl⟩

/-! ### The obligations -/

/-- Settles O47: both meanings are `skipIf` of the key's state, or the fault. -/
theorem keySkips : Obligations.KeySkips := by
  refine ⟨fun _ => encodes_of_known (by simp), fun _ => encodes_of_known (by simp), fun x s =>
    ⟨fun k hk => ?_, fun h => ⟨exec_of_faultOf_some (if_pos h), exec_of_faultOf_some (if_pos h)⟩⟩⟩
  obtain ⟨hskp, hsknp⟩ := exec_key_skips hk
  exact ⟨skipsWhen_of_exec_eq_skipIf hskp Iff.rfl,
    skipsWhen_of_exec_eq_skipIf hsknp (iff_of_eq (Bool.not_eq_true' _))⟩

/-- Settles O48: the meaning writes the latch and the mode alone. -/
theorem waitForKeyBlocks : Obligations.WaitForKeyBlocks :=
  ⟨fun _ => encodes_of_known (by simp), fun x s => ⟨effect s (.ldVxK x), exec_of_faultOf_none rfl,
    rfl, rfl, by simp [UnchangedExcept, effect, State.getV]⟩⟩

/-- Settles O51: each meaning advances pc and writes one register or timer. -/
theorem timerMoves : Obligations.TimerMoves :=
  ⟨fun _ => encodes_of_known (by simp), fun _ => encodes_of_known (by simp),
    fun _ => encodes_of_known (by simp), fun x s =>
    ⟨⟨_, exec_of_faultOf_none rfl, setsOnly_advance_setV x s.dt s⟩,
      ⟨effect s (.ldDtVx x), exec_of_faultOf_none rfl, rfl, rfl,
        by simp [UnchangedExcept, effect]⟩,
      ⟨effect s (.ldStVx x), exec_of_faultOf_none rfl, rfl, rfl,
        by simp [UnchangedExcept, effect]⟩⟩⟩

/-- Settles O55: the decoder answers UNKNOWN on these words, and its meaning advances pc and appends
the record. -/
theorem unknownIsNoOpWithDiagnostic : Obligations.UnknownIsNoOpWithDiagnostic :=
  fun w s h => ⟨decode_unknownWord h, effect s (.unknown w), exec_of_faultOf_none rfl, rfl, rfl,
    by simp [UnchangedExcept, effect]⟩

/-- Settles O60: the two tables read off, kind by kind. -/
theorem faultCodesAndInfoAsListed : Obligations.FaultCodesAndInfoAsListed :=
  ⟨fun _ => ⟨rfl, rfl⟩, ⟨rfl, rfl⟩, ⟨rfl, rfl⟩, fun _ => ⟨rfl, rfl⟩, fun _ => ⟨rfl, rfl⟩⟩

end Sys2Proof.Proofs
